-- ==== Sys2Proof/Word.lean ====
section
/-! DEFINITION. The data words of the block: a byte, a bus word and a 16-byte block (00_scope.md R6, R12, R13). -/

namespace Sys2Proof

/-- An unsigned byte, `0 .. 255` (R12). -/
abbrev Byte := BitVec 8

/-- A 32-bit word of the register port, bit 0 the least significant (R13, R60). -/
abbrev Word := BitVec 32

/-- The block size `B`, in bytes (R6, R35). -/
abbrev blockBytes : Nat := 16

/-- A block: exactly 16 bytes, byte 0 the one at the lowest offset (R12, R62). -/
abbrev Block := Vector Byte 16

/-- The block of 16 bytes 0x00, the reset value of every block register (R48). -/
abbrev Block.zero : Block := Vector.replicate 16 0

end Sys2Proof
end

