-- ==== Sys2Proof/Syntax.lean ====
section
/-! DEFINITION. The commands of the block, one constructor per row of spec/opcode_table.json (30_encoding.md R91).
No command has an operand field (R93), so no constructor has an argument. -/

namespace Sys2Proof

/-- The ten commands, in the order of the opcode map of R91. -/
inductive Instr where
  /-- PAD, opcode 0x1 (R113). -/
  | pad
  /-- UNPAD, opcode 0x2 (R114). -/
  | unpad
  /-- XOR, opcode 0x3 (R131). -/
  | xor
  /-- INC, opcode 0x4 (R141). -/
  | inc
  /-- ECB_ENC, opcode 0x5 (R150). -/
  | ecbEnc
  /-- ECB_DEC, opcode 0x6 (R151). -/
  | ecbDec
  /-- CBC_ENC, opcode 0x7 (R160). -/
  | cbcEnc
  /-- CBC_DEC, opcode 0x8 (R161). -/
  | cbcDec
  /-- CTR_ENC, opcode 0x9 (R170). -/
  | ctrEnc
  /-- CTR_DEC, opcode 0xA (R171). -/
  | ctrDec
deriving DecidableEq, Repr

end Sys2Proof
end

