-- ==== Sys2Proof/WellFormed.lean ====
section
/-! DEFINITION. What is well formed: a command word (R90, R91), a command, and the OPEN parameters (R10, R11). -/

namespace Sys2Proof

/-- RSV, bits 31:4 of a command word, is 0 (R90). -/
def rsvIsZero (w : Word) : Bool := w.toNat / 16 == 0

/-- OP, bits 3:0 of a command word, is an assigned opcode, `0x1 .. 0xA` (R91, R92). -/
def opIsAssigned (w : Word) : Bool := 1 ≤ w.toNat % 16 && w.toNat % 16 ≤ 10

/-- A word that selects a command: the negation of R92's "illegal". -/
def wellFormedWord (w : Word) : Bool := rsvIsZero w && opIsAssigned w

/-- Every command is well formed: it has no operand that could be out of range (R93). -/
def Instr.wellFormed : Instr → Bool
  | .pad => true
  | .unpad => true
  | .xor => true
  | .inc => true
  | .ecbEnc => true
  | .ecbDec => true
  | .cbcEnc => true
  | .cbcDec => true
  | .ctrEnc => true
  | .ctrDec => true

/-- The limits R10 sets to the OPEN parameter `MSG_CAP`. -/
def legalCapacity (cap : Nat) : Bool := cap % 16 == 0 && 32 ≤ cap && cap ≤ 2 ^ 31

/-- The limits R11 sets to `BASE` and `ADDR_W`: `BASE` is a multiple of `2^k` for the smallest `k` with
`2^k >= 0x1000 + MSG_CAP`, and the whole window lies below `2^ADDR_W`. -/
def legalPlacement (cap base addrW : Nat) : Bool :=
  base % 2 ^ Nat.clog 2 (0x1000 + cap) == 0 && base + 0x1000 + cap ≤ 2 ^ addrW

end Sys2Proof
end

