-- ==== Sys2Proof/Config.lean ====
section
/-! DEFINITION. What is fixed for one machine and what the spec leaves open (00_scope.md R8 to R11).
Every open value is an `opaque` constant with no body: no proof can see what it is. -/

namespace Sys2Proof

/-- The cipher primitive: for each key, a permutation of blocks together with its inverse (R8, U4; log entry 6). -/
opaque Config.cipher : Block → Equiv.Perm Block

/-- `E(k, x)`: encryption of one block (R8). -/
def Config.E (k x : Block) : Block := Config.cipher k x

/-- `D(k, x)`: decryption of one block, the inverse of `E(k, -)` (R8). -/
def Config.D (k x : Block) : Block := (Config.cipher k).symm x

/-- Answer number `n` of the randomness source: a draw under no law (R9, R173, U5; log entry 4). -/
opaque Config.draw : Nat → Block

/-- Selects `MSG_CAP` among its legal values (log entry 5). -/
opaque Config.capSelector : Nat

/-- `MSG_CAP`, the byte capacity of the message buffer: an OPEN parameter (R10, U8). Every multiple of 16 in
`32 .. 2^31` is the value for some selector, and no other number is (log entry 5). -/
def Config.msgCap : Nat := 16 * (Config.capSelector % (2 ^ 27 - 1)) + 32

/-- Selects `BASE` among its legal values (log entry 5). -/
opaque Config.baseSelector : Nat

/-- `BASE`, the bus address of register offset 0: an OPEN platform parameter (R11, U8). -/
def Config.base : Nat := Config.baseSelector * 2 ^ Nat.clog 2 (0x1000 + Config.msgCap)

/-- The number of address bits the platform has beyond those it needs (log entry 5). -/
opaque Config.spareAddrBits : Nat

/-- `ADDR_W`, the width in bits of the bus address: an OPEN platform parameter (R11, U8). -/
def Config.addrW : Nat := Nat.clog 2 (Config.base + 0x1000 + Config.msgCap) + Config.spareAddrBits

/-- The bus address of register-port offset `off`. Every offset in the model is relative to `BASE` (R11, R60). -/
def Config.busAddress (off : Nat) : Nat := Config.base + off

end Sys2Proof
end

