-- ==== Sys2Proof/Decode.lean ====
section
/-! DEFINITION. Decoding a command word, total on all 32-bit words, and the encoder (30_encoding.md R90 to R92, R96). -/

namespace Sys2Proof

/-- Why a command word is illegal (R92). -/
inductive DecodeError where
  /-- RSV, bits 31:4, is not 0. -/
  | reservedBits
  /-- OP is 0x0 or 0xB to 0xF. -/
  | reservedOpcode
deriving DecidableEq, Repr

/-- OP, bits 3:0 of a command word (R90). -/
def opField (w : Word) : BitVec 4 := w.extractLsb' 0 4

/-- RSV, bits 31:4 of a command word (R90). -/
def rsvField (w : Word) : BitVec 28 := w.extractLsb' 4 28

/-- The opcode map of R91. -/
def decodeOp (op : BitVec 4) : Except DecodeError Instr :=
  match op.toNat with
  | 0x1 => .ok .pad
  | 0x2 => .ok .unpad
  | 0x3 => .ok .xor
  | 0x4 => .ok .inc
  | 0x5 => .ok .ecbEnc
  | 0x6 => .ok .ecbDec
  | 0x7 => .ok .cbcEnc
  | 0x8 => .ok .cbcDec
  | 0x9 => .ok .ctrEnc
  | 0xA => .ok .ctrDec
  | _ => .error .reservedOpcode

/-- Decode of a command word (R96). -/
def decode (w : Word) : Except DecodeError Instr :=
  if rsvField w ≠ 0 then .error .reservedBits else decodeOp (opField w)

/-- The command word of each command (the column `word` of R91). -/
def encode : Instr → Word
  | .pad => 0x00000001
  | .unpad => 0x00000002
  | .xor => 0x00000003
  | .inc => 0x00000004
  | .ecbEnc => 0x00000005
  | .ecbDec => 0x00000006
  | .cbcEnc => 0x00000007
  | .cbcDec => 0x00000008
  | .ctrEnc => 0x00000009
  | .ctrDec => 0x0000000A

/-- The command word that the low `nbits` bits of `w` make, every bit above them 0. A command is one word, so it
needs no layout in memory: bit `n` of the table's row is bit `n` of the word written to CMD (R90). -/
def tableWord (nbits w : Nat) : Word := BitVec.ofNat 32 (w % 2 ^ nbits)

/-- What the decoder reads from a command whose bits are `w`, numbered as spec/opcode_table.json numbers them. -/
def decodeTableWord (nbits w : Nat) : Option Instr :=
  match decode (tableWord nbits w) with
  | .ok i => some i
  | .error _ => none

end Sys2Proof
end

