-- ==== Sys2Proof/Machine/State.lean ====
section
/-! DEFINITION. The state of the block (10_state.md R23) and of the agents around it (R22), the ways a step can
stop, and the state after reset (R48). -/

namespace Sys2Proof.Machine

/-- The three stored bits of CTRL (R25). -/
structure Ctrl where
  /-- Bit 0, STRICT_UNPAD: unpad is the hardened one. -/
  strictUnpad : Bool
  /-- Bit 1, IRQ_EN: the irq output follows STATUS.DONE. -/
  irqEn : Bool
  /-- Bit 2, NONCE_SEL: CTR_ENC takes the NONCE register, not a draw. -/
  nonceSel : Bool
deriving DecidableEq, Repr

/-- The fields of STATUS (R28 to R31). -/
structure Status where
  /-- Bit 0, BUSY: a command is pending (R28). -/
  busy : Bool
  /-- Bit 1, DONE: a command has completed (R29). -/
  done : Bool
  /-- Bit 2, PADFB: the last unpad took the lenient fallback (R30). -/
  padfb : Bool
  /-- Bits 11:8, ERR: the code of the last completed command (R31, R180). -/
  err : BitVec 4
deriving DecidableEq, Repr

/-- The error conditions of R180. -/
inductive ErrCode where
  /-- Code 1: ECB_DEC, CBC_DEC, CTR_DEC with a length that is no multiple of 16. -/
  | invalidLength
  /-- Code 2: CTR_DEC with LEN < 16. -/
  | truncatedCiphertext
  /-- Code 3: a strict unpad returned Invalid. -/
  | invalidPadding
  /-- Code 4: reserved, never raised (R181). -/
  | keyLength
  /-- Code 5: LEN > MSG_CAP, or the output would not fit. -/
  | capacityExceeded
  /-- Code 6: an illegal command word (R92). -/
  | illegalCommand
deriving DecidableEq, Repr

/-- The message buffer: the specified cells as (index, byte) pairs, indexes strictly rising, index 0 at offset
0x1000 (R42, R66). An index that is not listed is an unspecified cell: it reads as no value (log entry 1). -/
abbrev Memory := List Host.Cell

/-- One turn of an agent: who moves next, and for the host what it asks (R22, R60, R95, R210; log entry 2).
Offsets are byte offsets from BASE. -/
inductive Turn where
  /-- The engine takes its step, if a command is pending (R95). -/
  | engine
  /-- `BusRead(off)` (R60). -/
  | read (off : Nat)
  /-- `BusWrite(off, w)` (R60). -/
  | write (off : Nat) (w : Word)
  /-- The platform resets the block (R210). -/
  | reset
deriving DecidableEq, Repr

/-- The port's answer to one host access (R60, R186; log entry 3). -/
inductive Reply where
  /-- A read returned this word. -/
  | data (w : Word)
  /-- A write took effect. -/
  | written
  /-- The error response: the access had no effect and returned no data (R186). -/
  | busError
deriving DecidableEq, Repr

/-- Why the machine stops. Both are safe: the chip goes on with some byte where the model stops (U6, D34; log entry 1). -/
inductive Fault where
  /-- A command read an unspecified MSG cell. Raised by UNPAD and by the six mode commands. Safe. -/
  | unspecifiedCommandRead
  /-- A host read of a MSG word covered an unspecified cell. Raised by a host read turn. Safe. -/
  | unspecifiedHostRead
deriving DecidableEq, Repr

/-- Why an instruction has no meaning. -/
inductive Refusal where
  /-- The instruction is not modelled yet. Raised by no arm: every command has its meaning. Safe. -/
  | notModelled (mnemonic : String)
deriving DecidableEq, Repr

/-- The state. The fields down to `pending` are the architectural state of R23; the last three are the model's
own and hold the agents around the block as plain data. -/
structure State where
  /-- CTRL (R25). -/
  ctrl : Ctrl
  /-- STATUS (R28 to R32). -/
  status : Status
  /-- LEN, the number of valid bytes of the message (R33). -/
  len : Word
  /-- KEY (R36). -/
  key : Block
  /-- IV (R37). -/
  iv : Block
  /-- OPA (R38). -/
  opa : Block
  /-- OPB (R39). -/
  opb : Block
  /-- RES (R40). -/
  res : Block
  /-- NONCE (R41). -/
  nonce : Block
  /-- MSG (R42). -/
  msg : Memory
  /-- The command word accepted and not yet executed (R43). -/
  pending : Option Word
  /-- How many answers of the randomness source have been used: the model's own, it names the next free draw
  (R9; log entry 4). -/
  draws : Nat
  /-- The turns to come, the next one first; when there is none, the engine moves: the model's own (R22, R75,
  R220; log entry 2). -/
  schedule : List Turn
  /-- The port's replies so far, oldest first: the model's own (R60; log entry 3). -/
  replies : List Reply
deriving DecidableEq, Repr

/-- The state right after reset (R48, R212), before any host access: the registers 0, every MSG cell
unspecified, no command pending. -/
def State.reset : State where
  ctrl := ⟨false, false, false⟩
  status := ⟨false, false, false, 0⟩
  len := 0
  key := Block.zero
  iv := Block.zero
  opa := Block.zero
  opb := Block.zero
  res := Block.zero
  nonce := Block.zero
  msg := []
  pending := none
  draws := 0
  schedule := []
  replies := []

end Sys2Proof.Machine
end

