-- ==== Sys2Proof/Machine/Functions.lean ====
section
/-! DEFINITION. The named pure functions of the spec (00_scope.md R14, R17): the padding codec, the block XOR, the
counter incrementer, the block view of a byte sequence, and the chains of the three mode engines. -/

namespace Sys2Proof.Machine

/-- The block made of the first 16 bytes of a sequence (a missing byte, which no caller leaves, is 0x00). -/
def blockOfBytes (s : List Byte) : Block := Vector.ofFn fun i => s.getD i.val 0

/-- `group(s)`: the consecutive blocks `s[16i .. 16i+16)` in order (R70), taken `n` at most. -/
def groupN : Nat → List Byte → List Block
  | 0, _ => []
  | n + 1, s => blockOfBytes (s.take blockBytes) :: groupN n (s.drop blockBytes)

/-- `group(s)` (R70). The spec defines it for `len(s) mod 16 = 0`; every caller has checked that or has padded. -/
def group (s : List Byte) : List Block := groupN (s.length / blockBytes) s

/-- `ungroup(b_0, ..., b_(N-1)) = b_0 ++ ... ++ b_(N-1)` (R71). -/
def ungroup (bs : List Block) : List Byte := bs.flatMap Vector.toList

/-- The pad length `r = 16 - (len mod 16)`, always in `1 .. 16` (R110). -/
def padLen (len : Nat) : Nat := blockBytes - len % blockBytes

/-- The padding trailer of a message of `len` bytes: `[r]*r` (R110). -/
def padBytes (len : Nat) : List Byte := List.replicate (padLen len) (BitVec.ofNat 8 (padLen len))

/-- `pad(s) = s ++ [r]*r` (R110). -/
def pad (s : List Byte) : List Byte := s ++ padBytes s.length

/-- The three outcomes of `unpad` (R111). -/
inductive Unpadded (α : Type) where
  /-- `Ok(t)`: the trailer is stripped. -/
  | ok (t : α)
  /-- `Fallback`: the input is returned unchanged. -/
  | fallback
  /-- `Invalid`: the hardened unpad rejects the trailer. -/
  | invalid
deriving DecidableEq, Repr

/-- What `unpad` returns for a trailer that fails the length bound (R111). -/
def malformed {α : Type} (strict : Bool) : Unpadded α := if strict then .invalid else .fallback

/-- `unpad(s, strict)` (R111): the reference unpad, and with `strict` the hardened one, which has no bound
`n <= 16` (92_eei_decisions.md D11) and treats the empty sequence as malformed (D12). -/
def unpad (s : List Byte) (strict : Bool) : Unpadded (List Byte) :=
  if s.length = 0 then malformed strict
  else
    let last := s.getD (s.length - 1) 0
    let n := last.toNat
    if n = 0 ∨ n > s.length then malformed strict
    else if strict = true ∧ ¬ (s.drop (s.length - n)).all (· == last) then .invalid
    else .ok (s.take (s.length - n))

/-- `xor16(a, b)`: 16 byte lanes (R130). -/
def xor16 (a b : Block) : Block := Vector.ofFn fun i => a[i] ^^^ b[i]

/-- The loop of `inc16` with the bytes below index `n` still to do: adds 1 to byte `n-1` and goes on while
there is a carry out (R140). -/
def incFrom : (n : Nat) → n ≤ blockBytes → Block → Block
  | 0, _, d => d
  | n + 1, h, d =>
    let b := d[n] + 1
    if b = 0 then incFrom n (by omega) (d.set n b) else d.set n b

/-- `inc16(c)`: the big-endian +1 with carry from byte 15 towards byte 0; the carry out of byte 0 is dropped
(R140, the byte form). -/
def inc16 (c : Block) : Block := incFrom blockBytes (Nat.le_refl _) c

/-- `inc16` applied `k` times (R142, R172). -/
def inc16Iter : Nat → Block → Block
  | 0, c => c
  | k + 1, c => inc16Iter k (inc16 c)

/-- `be(x)`: the big-endian value of a block, byte 0 the most significant (R14). -/
def be (x : Block) : Nat := ((List.finRange 16).map fun i => x[i].toNat * 256 ^ (15 - i.val)).sum

/-- `be^-1(n)`: the block whose big-endian value is `n`, for `n < 2^128` (R14). -/
def beInv (n : Nat) : Block := Vector.ofFn fun i => BitVec.ofNat 8 (n / 256 ^ (15 - i.val))

/-- The blocks of ECB_ENC: each encrypted alone (R150, R152). -/
def ecbEncrypt (k : Block) (bs : List Block) : List Block := bs.map (Config.E k)

/-- The blocks of ECB_DEC: each decrypted alone (R151). -/
def ecbDecrypt (k : Block) (bs : List Block) : List Block := bs.map (Config.D k)

/-- The chain of CBC_ENC: `c_i = E(k, xor16(b_i, prev))`, and `prev` becomes `c_i` (R160). -/
def cbcEncrypt (k : Block) : Block → List Block → List Block
  | _, [] => []
  | prev, b :: bs => let c := Config.E k (xor16 b prev); c :: cbcEncrypt k c bs

/-- The chain of CBC_DEC: `p_i = xor16(D(k, c_i), prev)`, and `prev` becomes the ciphertext block `c_i` (R161). -/
def cbcDecrypt (k : Block) : Block → List Block → List Block
  | _, [] => []
  | prev, c :: cs => xor16 (Config.D k c) prev :: cbcDecrypt k c cs

/-- The blocks of CTR in either direction: block `i` is combined with `E(k, v)`, and `v` is incremented
(R170, R171). -/
def ctrApply (k : Block) : Block → List Block → List Block
  | _, [] => []
  | v, b :: bs => xor16 b (Config.E k v) :: ctrApply k (inc16 v) bs

end Sys2Proof.Machine
end

