-- ==== Sys2Proof/Machine/Flags.lean ====
section
/-! DEFINITION. Every flag computation of the spec: the error codes (R180), the value of STATUS after each event
(10_state.md R46), the words CTRL and STATUS read as (R25, R26, R32, R65), and the irq output (R45). -/

namespace Sys2Proof.Machine

/-- The 4-bit code of an error (R180). -/
def ErrCode.code : ErrCode → BitVec 4
  | .invalidLength => 1
  | .truncatedCiphertext => 2
  | .invalidPadding => 3
  | .keyLength => 4
  | .capacityExceeded => 5
  | .illegalCommand => 6

/-- STATUS when a CMD write is accepted (R46, R94). -/
def statusAccepted : Status := ⟨true, false, false, 0⟩

/-- STATUS when a command completes without error; `padfb` says that its unpad returned Fallback (R46, R182). -/
def statusCompleted (padfb : Bool) : Status := ⟨false, true, padfb, 0⟩

/-- STATUS when a command completes with an error (R46, R183). -/
def statusFailed (c : ErrCode) : Status := ⟨false, true, false, c.code⟩

/-- STATUS after a host write of STATUS with bit 1 = 1: DONE is cleared, nothing else (R29, R32). -/
def statusDoneCleared (st : Status) : Status := { st with done := false }

/-- One bit as a bus word. -/
def bitWord (b : Bool) : Word := (BitVec.ofBool b).setWidth 32

/-- The word a read of STATUS returns: `ERR << 8 | PADFB << 2 | DONE << 1 | BUSY` (R65). -/
def statusWord (st : Status) : Word :=
  st.err.setWidth 32 <<< 8 ||| bitWord st.padfb <<< 2 ||| bitWord st.done <<< 1 ||| bitWord st.busy

/-- The word a read of CTRL returns: the three stored bits, bits 31:3 read as 0 (R25, R26, R65). -/
def ctrlWord (c : Ctrl) : Word :=
  bitWord c.nonceSel <<< 2 ||| bitWord c.irqEn <<< 1 ||| bitWord c.strictUnpad

/-- What a write of CTRL stores: bits 2:0, the others ignored (R25, R26, R65). -/
def ctrlOfWord (w : Word) : Ctrl := ⟨w.getLsbD 0, w.getLsbD 1, w.getLsbD 2⟩

/-- The output `irq = STATUS.DONE AND CTRL.IRQ_EN`, a level (R45, R188). -/
def State.irq (s : State) : Bool := s.status.done && s.ctrl.irqEn

end Sys2Proof.Machine
end

