-- ==== Sys2Proof/Machine/Ops.lean ====
section
/-! DEFINITION. The named operations over the state: reading and writing MSG (R15), accepting a command (R94),
completing it (R182), completing it with an error (R183, the block's only exception entry) and the host's return
from a completion (R191), reset (R210), and the reply to a host access. -/

namespace Sys2Proof.Machine

/-- The byte in a cell, or no value if the cell is unspecified (R42). -/
def Memory.read : Memory → Nat → Option Byte
  | [], _ => none
  | c :: m, a => if a = c.1 then some c.2 else if a < c.1 then none else Memory.read m a

/-- `MSG[a] <- b` (R15, R42). No entry can equal what an unlisted cell reads as, since that is no byte, so a write
never removes an entry. -/
def Memory.write : Memory → Nat → Byte → Memory
  | [], a, b => [(a, b)]
  | c :: m, a, b =>
    if a < c.1 then (a, b) :: c :: m
    else if a = c.1 then (a, b) :: m
    else c :: Memory.write m a b

/-- The canonical form: indexes strictly rising. -/
abbrev Memory.wf (m : Memory) : Prop := m.Pairwise fun x y => x.1 < y.1

/-- Every listed cell is one of the `MSG_CAP` cells of the buffer (R42). -/
abbrev Memory.inWindow (m : Memory) : Prop := ∀ c ∈ m, c.1 < Config.msgCap

/-- `MemRead(a, n)`: the bytes `MSG[a .. a+n)`, or no value if one of the cells is unspecified (R15). -/
def Memory.readBytes (m : Memory) (a : Nat) : Nat → Option (List Byte)
  | 0 => some []
  | n + 1 =>
    match m.read a, Memory.readBytes m (a + 1) n with
    | some b, some bs => some (b :: bs)
    | _, _ => none

/-- `MemWrite(a, n, v)` with `n = len(v)`: `MSG[a+j] <- v[j]` (R15). -/
def Memory.writeBytes (m : Memory) (a : Nat) : List Byte → Memory
  | [] => m
  | b :: bs => Memory.writeBytes (m.write a b) (a + 1) bs

/-- The length `L = LEN` of the message, as a number. -/
def State.msgLen (s : State) : Nat := s.len.toNat

/-- `MemWrite(0, len(bs), bs)` and `LEN <- n`: a mode command's output. -/
def storeMessage (bs : List Byte) (n : Nat) (s : State) : State :=
  { s with msg := s.msg.writeBytes 0 bs, len := BitVec.ofNat 32 n }

/-- Acceptance of a CMD write of `w` (R94). It does not check `w`. -/
def acceptCommand (w : Word) (s : State) : State := { s with pending := some w, status := statusAccepted }

/-- Successful completion (R182); `padfb` says that the command's unpad returned Fallback. -/
def complete (padfb : Bool) (s : State) : State := { s with pending := none, status := statusCompleted padfb }

/-- `raise Err(c)`, error completion (R16, R183): applied to the state before the command's step, so that nothing
else the command did remains. This is the block's exception entry: it saves only the code (R190). -/
def raiseErr (c : ErrCode) (s : State) : State := { s with pending := none, status := statusFailed c }

/-- The host's return from a completion: DONE is cleared (R29, R191). -/
def clearDone (s : State) : State := { s with status := statusDoneCleared s.status }

/-- Reset of the block (R210, R211): every component of R23 takes its reset value. What lies outside the block
stays: the answers already drawn, the turns to come, the replies given. -/
def resetBlock (s : State) : State :=
  { State.reset with draws := s.draws, schedule := s.schedule, replies := s.replies }

/-- The port answers the host access of this turn. -/
def addReply (r : Reply) (s : State) : State := { s with replies := s.replies ++ [r] }

/-- The turns that remain after this one. -/
def setSchedule (ts : List Turn) (s : State) : State := { s with schedule := ts }

/-- A state in which the engine's very next step runs the command word `w`: `w` is accepted as a CMD write
accepts it (R94), and the next turn is the engine's. It stands for the host's CMD write (log entry 9). -/
def placeCommand (w : Word) (s : State) : State := setSchedule (.engine :: s.schedule) (acceptCommand w s)

/-- The block alone: the state without the host's turns and replies. -/
def State.blockPart (s : State) : State := { s with schedule := [], replies := [] }

end Sys2Proof.Machine
end

