-- ==== Sys2Proof/Machine/Operands.lean ====
section
/-! DEFINITION. How a command gets its operands: the message with the checks of 60_exceptions.md R185, the nonce
(R173), the trailer UNPAD reads (R111); and the lane order of byte arrays on the bus (20_memory.md R62). -/

namespace Sys2Proof.Machine

/-- What fetching a command's message gives. -/
inductive Operand where
  /-- The bytes of the message. -/
  | bytes (s : List Byte)
  /-- A check of R185 failed. -/
  | err (c : ErrCode)
  /-- A cell of the message is unspecified (R42; log entry 1). -/
  | unspecified
deriving DecidableEq, Repr

/-- A command on its fetched operand: `k` is the command's effect with its completion. -/
def runOn (x : Operand) (s : State) (k : List Byte → State) : Host.Outcome State Fault Refusal :=
  match x with
  | .bytes bs => .next (k bs)
  | .err c => .next (raiseErr c s)
  | .unspecified => .fault .unspecifiedCommandRead

/-- `MemRead(0, n)` as an operand. -/
def readMessage (m : Memory) (n : Nat) : Operand :=
  match m.readBytes 0 n with
  | some bs => .bytes bs
  | none => .unspecified

/-- The padded message of an encrypt command, `pad(MemRead(0, L))`, whose output has `extra` bytes more than the
padded message: checks 2 and 5 of R185, both before the message is read (log entry 8). -/
def paddedInput (extra : Nat) (s : State) : Operand :=
  if s.msgLen > Config.msgCap then .err .capacityExceeded
  else if s.msgLen + padLen s.msgLen + extra > Config.msgCap then .err .capacityExceeded
  else
    match readMessage s.msg s.msgLen with
    | .bytes bs => .bytes (pad bs)
    | x => x

/-- The ciphertext of a decrypt command, `MemRead(0, L)`, which must hold a trailer of `trailer` bytes: checks 2, 3
and 4 of R185. -/
def cipherInput (trailer : Nat) (s : State) : Operand :=
  if s.msgLen > Config.msgCap then .err .capacityExceeded
  else if s.msgLen < trailer then .err .truncatedCiphertext
  else if s.msgLen % blockBytes ≠ 0 then .err .invalidLength
  else readMessage s.msg s.msgLen

/-- The end of a decrypt command with decrypted text `p`: check 6 of R185 and the three outcomes of `unpad`
(R151, R161, R171). On Fallback the output is the whole of `p`. -/
def finishDecrypt (p : List Byte) (s : State) : State :=
  match unpad p s.ctrl.strictUnpad with
  | .ok t => complete false (storeMessage p t.length s)
  | .fallback => complete true (storeMessage p p.length s)
  | .invalid => raiseErr .invalidPadding s

/-- `unpad(MemRead(0, L), strict)` as UNPAD needs it: the length of what is kept. It reads the cells R111 says are
read: the last byte, and with `strict` the last `n` bytes (log entry 7). No value: such a cell is unspecified. -/
def unpadInPlace (m : Memory) (len : Nat) (strict : Bool) : Option (Unpadded Nat) :=
  if len = 0 then some (malformed strict)
  else
    match m.read (len - 1) with
    | none => none
    | some last =>
      let n := last.toNat
      if n = 0 ∨ n > len then some (malformed strict)
      else if strict then
        match m.readBytes (len - n) n with
        | none => none
        | some t => if t.all (· == last) then some (.ok (len - n)) else some .invalid
      else some (.ok (len - n))

/-- The nonce of CTR_ENC: the NONCE register, or the next answer of the randomness source (R173). -/
def ctrNonce (s : State) : Block := if s.ctrl.nonceSel then s.nonce else Config.draw s.draws

/-- The state once CTR_ENC has taken its nonce: a draw is used up only with NONCE_SEL = 0 (R173). -/
def useNonce (s : State) : State := { s with draws := if s.ctrl.nonceSel then s.draws else s.draws + 1 }

/-- Lane `m` of a bus word: bits `8m+7 .. 8m` (R62). -/
def lane (w : Word) (m : Nat) : Byte := w.extractLsb' (8 * m) 8

/-- The four bytes a bus word writes, lowest offset first (R62). -/
def lanes (w : Word) : List Byte := [lane w 0, lane w 1, lane w 2, lane w 3]

/-- The bus word that holds four bytes, the byte at the lowest offset in bits 7:0 (R62). -/
def wordOfLanes (b0 b1 b2 b3 : Byte) : Word :=
  b0.setWidth 32 ||| b1.setWidth 32 <<< 8 ||| b2.setWidth 32 <<< 16 ||| b3.setWidth 32 <<< 24

/-- Word `j` of a block register as a read returns it (R62). -/
def blockWord (x : Block) (j : Fin 4) : Word :=
  wordOfLanes x[4 * j.val] x[4 * j.val + 1] x[4 * j.val + 2] x[4 * j.val + 3]

/-- A block register after a write of its word `j` (R62). -/
def setBlockWord (x : Block) (j : Fin 4) (w : Word) : Block :=
  (((x.set (4 * j.val) (lane w 0)).set (4 * j.val + 1) (lane w 1)).set (4 * j.val + 2) (lane w 2)).set
    (4 * j.val + 3) (lane w 3)

end Sys2Proof.Machine
end

