-- ==== Sys2Proof/Machine/Bus.lean ====
section
/-! DEFINITION. The register port: the offset map (10_state.md R24), what each access reads and writes
(20_memory.md R60 to R68) and when it gets a bus error (60_exceptions.md R186). -/

namespace Sys2Proof.Machine

/-- What a mapped, aligned offset reaches (R24). `j` is the word of a 16-byte register or of the MSG window. -/
inductive Target where
  | ctrl
  | cmd
  | status
  | len
  | cap
  | blksz
  | key (j : Fin 4)
  | iv (j : Fin 4)
  | opa (j : Fin 4)
  | opb (j : Fin 4)
  | res (j : Fin 4)
  | nonce (j : Fin 4)
  | msg (j : Nat)
deriving DecidableEq, Repr

/-- The offset of each target from BASE (R24). -/
def Target.offset : Target → Nat
  | .ctrl => 0x000
  | .cmd => 0x004
  | .status => 0x008
  | .len => 0x00C
  | .cap => 0x010
  | .blksz => 0x014
  | .key j => 0x020 + 4 * j.val
  | .iv j => 0x030 + 4 * j.val
  | .opa j => 0x040 + 4 * j.val
  | .opb j => 0x050 + 4 * j.val
  | .res j => 0x060 + 4 * j.val
  | .nonce j => 0x070 + 4 * j.val
  | .msg j => 0x1000 + 4 * j

/-- The target is there: a MSG word lies in the window of `MSG_CAP` bytes (R24, R42). -/
def Target.isMapped : Target → Bool
  | .ctrl => true
  | .cmd => true
  | .status => true
  | .len => true
  | .cap => true
  | .blksz => true
  | .key _ => true
  | .iv _ => true
  | .opa _ => true
  | .opb _ => true
  | .res _ => true
  | .nonce _ => true
  | .msg j => 4 * j < Config.msgCap

/-- The read-only targets: a write of one is a bus error (R24, R65). -/
def Target.isReadOnly : Target → Bool
  | .ctrl => false
  | .cmd => false
  | .status => false
  | .len => false
  | .cap => true
  | .blksz => true
  | .key _ => false
  | .iv _ => false
  | .opa _ => false
  | .opb _ => false
  | .res _ => true
  | .nonce _ => false
  | .msg _ => false

/-- The word of a 16-byte register that an aligned offset in it names. -/
def wordIndex (off : Nat) : Fin 4 := ⟨off / 4 % 4, Nat.mod_lt _ (by decide)⟩

/-- The register at an aligned offset below 0x1000 (R24). No value: the offset is reserved (R64). -/
def registerAt (off : Nat) : Option Target :=
  match off / 16 with
  | 0x00 =>
    match off % 16 with
    | 0x0 => some .ctrl
    | 0x4 => some .cmd
    | 0x8 => some .status
    | 0xC => some .len
    | _ => none
  | 0x01 =>
    match off % 16 with
    | 0x0 => some .cap
    | 0x4 => some .blksz
    | _ => none
  | 0x02 => some (.key (wordIndex off))
  | 0x03 => some (.iv (wordIndex off))
  | 0x04 => some (.opa (wordIndex off))
  | 0x05 => some (.opb (wordIndex off))
  | 0x06 => some (.res (wordIndex off))
  | 0x07 => some (.nonce (wordIndex off))
  | _ => none

/-- The offset map of R24. No value: the offset is misaligned (R61) or reserved (R64). -/
def decodeOffset (off : Nat) : Option Target :=
  if off % 4 ≠ 0 then none
  else if off < 0x1000 then registerAt off
  else if off - 0x1000 < Config.msgCap then some (.msg ((off - 0x1000) / 4))
  else none

/-- The targets that can be read while STATUS.BUSY = 1 (R67). -/
def Target.readableWhileBusy : Target → Bool
  | .ctrl => true
  | .cmd => false
  | .status => true
  | .len => false
  | .cap => true
  | .blksz => true
  | .key _ => false
  | .iv _ => false
  | .opa _ => false
  | .opb _ => false
  | .res _ => false
  | .nonce _ => false
  | .msg _ => false

/-- The word of the MSG window at index `4j`, or no value if one of its cells is unspecified (R62, R66). -/
def msgWord (m : Memory) (j : Nat) : Option Word :=
  match m.read (4 * j), m.read (4 * j + 1), m.read (4 * j + 2), m.read (4 * j + 3) with
  | some b0, some b1, some b2, some b3 => some (wordOfLanes b0 b1 b2 b3)
  | _, _, _, _ => none

/-- The column BusRead of R65. KEY and CMD read as 0 (R27, R36). No value: an unspecified MSG cell is read. -/
def readTarget (t : Target) (s : State) : Option Word :=
  match t with
  | .ctrl => some (ctrlWord s.ctrl)
  | .cmd => some 0
  | .status => some (statusWord s.status)
  | .len => some s.len
  | .cap => some (BitVec.ofNat 32 Config.msgCap)
  | .blksz => some (BitVec.ofNat 32 blockBytes)
  | .key _ => some 0
  | .iv j => some (blockWord s.iv j)
  | .opa j => some (blockWord s.opa j)
  | .opb j => some (blockWord s.opb j)
  | .res j => some (blockWord s.res j)
  | .nonce j => some (blockWord s.nonce j)
  | .msg j => msgWord s.msg j

/-- The column BusWrite of R65. No value: the target is read-only, a bus error. -/
def writeTarget (t : Target) (w : Word) (s : State) : Option State :=
  match t with
  | .ctrl => some { s with ctrl := ctrlOfWord w }
  | .cmd => some (acceptCommand w s)
  | .status => some (if w.getLsbD 1 then clearDone s else s)
  | .len => some { s with len := w }
  | .cap => none
  | .blksz => none
  | .key j => some { s with key := setBlockWord s.key j w }
  | .iv j => some { s with iv := setBlockWord s.iv j w }
  | .opa j => some { s with opa := setBlockWord s.opa j w }
  | .opb j => some { s with opb := setBlockWord s.opb j w }
  | .res _ => none
  | .nonce j => some { s with nonce := setBlockWord s.nonce j w }
  | .msg j => some { s with msg := s.msg.writeBytes (4 * j) (lanes w) }

/-- What a read access gets (R60): a word, a bus error, or, in the model, a stop (log entry 1). -/
inductive ReadResult where
  | data (w : Word)
  | busError
  | unspecified
deriving DecidableEq, Repr

/-- `BusRead(off)` (R60, R61, R64, R65, R67). -/
def busRead (off : Nat) (s : State) : ReadResult :=
  match decodeOffset off with
  | none => .busError
  | some t =>
    if s.status.busy = true ∧ t.readableWhileBusy = false then .busError
    else
      match readTarget t s with
      | some w => .data w
      | none => .unspecified

/-- `BusWrite(off, w)` (R60, R61, R64, R65, R67). No value: a bus error, and no state changes (R186). -/
def busWrite (off : Nat) (w : Word) (s : State) : Option State :=
  match decodeOffset off with
  | none => none
  | some t => if s.status.busy then none else writeTarget t w s

/-- A host read: the block does not change, the host gets its reply (R65, R186). -/
def hostRead (off : Nat) (s : State) : Host.Outcome State Fault Refusal :=
  match busRead off s with
  | .data w => .next (addReply (.data w) s)
  | .busError => .next (addReply .busError s)
  | .unspecified => .fault .unspecifiedHostRead

/-- A host write: it takes effect whole, or the host gets a bus error and the block does not change (R68, R186). -/
def hostWrite (off : Nat) (w : Word) (s : State) : State :=
  match busWrite off w s with
  | some t => addReply .written t
  | none => addReply .busError s

end Sys2Proof.Machine
end

