-- ==== Sys2Proof/Machine/BlockXor.lean ====
section
/-! DEFINITION. The command of the block XOR (42_block_xor.md R131). -/

namespace Sys2Proof.Machine

/-- XOR: `RES <- xor16(OPA, OPB)`; it raises no error (R131). -/
def execXor (s : State) : Host.Outcome State Fault Refusal :=
  .next (complete false { s with res := xor16 s.opa s.opb })

end Sys2Proof.Machine
end

