-- ==== Sys2Proof/Machine/Cbc.lean ====
section
/-! DEFINITION. The commands of the CBC mode engine (45_cbc_mode_engine.md R160, R161). -/

namespace Sys2Proof.Machine

/-- CBC_ENC: pad, group, chain from IV, store; the IV is not part of the output (R160). -/
def execCbcEnc (s : State) : Host.Outcome State Fault Refusal :=
  runOn (paddedInput 0 s) s fun p =>
    complete false (storeMessage (ungroup (cbcEncrypt s.key s.iv (group p))) p.length s)

/-- CBC_DEC: group, unchain from IV, unpad (R161). -/
def execCbcDec (s : State) : Host.Outcome State Fault Refusal :=
  runOn (cipherInput 0 s) s fun c => finishDecrypt (ungroup (cbcDecrypt s.key s.iv (group c))) s

end Sys2Proof.Machine
end

