-- ==== Sys2Proof/Machine/Counter.lean ====
section
/-! DEFINITION. The command of the counter incrementer (43_counter_incrementer.md R141). -/

namespace Sys2Proof.Machine

/-- INC: `RES <- inc16(OPA)`; overflow is no error and sets no flag (R141). -/
def execInc (s : State) : Host.Outcome State Fault Refusal :=
  .next (complete false { s with res := inc16 s.opa })

end Sys2Proof.Machine
end

