-- ==== Sys2Proof/Machine/Ctr.lean ====
section
/-! DEFINITION. The commands of the CTR mode engine (46_ctr_mode_engine.md R170, R171). -/

namespace Sys2Proof.Machine

/-- CTR_ENC: take the nonce, pad, group, combine with the keystream, store, append the nonce (R170, R173). -/
def execCtrEnc (s : State) : Host.Outcome State Fault Refusal :=
  runOn (paddedInput blockBytes s) s fun p =>
    complete false (storeMessage (ungroup (ctrApply s.key (ctrNonce s) (group p)) ++ (ctrNonce s).toList)
      (p.length + blockBytes) (useNonce s))

/-- CTR_DEC: the last 16 bytes are the nonce, the rest the body; combine with the keystream, unpad (R171). -/
def execCtrDec (s : State) : Host.Outcome State Fault Refusal :=
  runOn (cipherInput blockBytes s) s fun c =>
    let body := c.take (c.length - blockBytes)
    let nonce := blockOfBytes (c.drop (c.length - blockBytes))
    finishDecrypt (ungroup (ctrApply s.key nonce (group body))) s

end Sys2Proof.Machine
end

