-- ==== Sys2Proof/Machine/Ecb.lean ====
section
/-! DEFINITION. The commands of the ECB mode engine (44_ecb_mode_engine.md R150, R151). -/

namespace Sys2Proof.Machine

/-- ECB_ENC: pad, group, encrypt each block, store (R150). -/
def execEcbEnc (s : State) : Host.Outcome State Fault Refusal :=
  runOn (paddedInput 0 s) s fun p =>
    complete false (storeMessage (ungroup (ecbEncrypt s.key (group p))) p.length s)

/-- ECB_DEC: group, decrypt each block, unpad (R151). -/
def execEcbDec (s : State) : Host.Outcome State Fault Refusal :=
  runOn (cipherInput 0 s) s fun c => finishDecrypt (ungroup (ecbDecrypt s.key (group c))) s

end Sys2Proof.Machine
end

