-- ==== Sys2Proof/Machine/Padding.lean ====
section
/-! DEFINITION. The commands of the padding codec (41_padding_codec.md R113, R114). -/

namespace Sys2Proof.Machine

/-- PAD: append the trailer in place. The bytes of the message are not read (R113). -/
def execPad (s : State) : Host.Outcome State Fault Refusal :=
  let L := s.msgLen
  if L > Config.msgCap then .next (raiseErr .capacityExceeded s)
  else if L + padLen L > Config.msgCap then .next (raiseErr .capacityExceeded s)
  else .next (complete false
    { s with msg := s.msg.writeBytes L (padBytes L), len := BitVec.ofNat 32 (L + padLen L) })

/-- UNPAD: strip the trailer in place. No cell is written (R114). -/
def execUnpad (s : State) : Host.Outcome State Fault Refusal :=
  let L := s.msgLen
  if L > Config.msgCap then .next (raiseErr .capacityExceeded s)
  else
    match unpadInPlace s.msg L s.ctrl.strictUnpad with
    | none => .fault .unspecifiedCommandRead
    | some (.ok kept) => .next (complete false { s with len := BitVec.ofNat 32 kept })
    | some .fallback => .next (complete true s)
    | some .invalid => .next (raiseErr .invalidPadding s)

end Sys2Proof.Machine
end

