-- ==== Sys2Proof/Machine/Engine.lean ====
section
/-! DEFINITION. The engine's step (30_encoding.md R95, R96) and the turn of each agent (10_state.md R22). -/

namespace Sys2Proof.Machine

/-- The engine's step (R95): decode the pending word and run its command to the end; an illegal word completes
with IllegalCommand (R92). With no command pending the engine is idle and nothing changes (R197). -/
def engineStep (s : State) : Host.Outcome State Fault Refusal :=
  match s.pending with
  | none => .next s
  | some w =>
    match decode w with
    | .ok i => exec i s
    | .error _ => .next (raiseErr .illegalCommand s)

/-- One turn of one agent (R22, R75, R210). -/
def runTurn (t : Turn) (s : State) : Host.Outcome State Fault Refusal :=
  match t with
  | .engine => engineStep s
  | .read off => hostRead off s
  | .write off w => .next (hostWrite off w s)
  | .reset => .next (resetBlock s)

/-- The next turn of the schedule; when the schedule has run out, the engine's (R220; log entry 2). -/
def nextTurn (s : State) : Host.Outcome State Fault Refusal :=
  match s.schedule with
  | [] => engineStep s
  | t :: ts => runTurn t (setSchedule ts s)

end Sys2Proof.Machine
end

