-- ==== Sys2Proof/Machine/Step.lean ====
section
/-! DEFINITION. One step of the machine, and the placing of the command it runs next. -/

namespace Sys2Proof.Machine

/-- One step: the agent whose turn it is moves (R22, R75, R95). -/
def step (s : State) : Host.Outcome State Fault Refusal := nextTurn s

/-- `s` with the command whose bits are `w`, numbered as spec/opcode_table.json numbers them, accepted as a CMD
write accepts it, and the engine to move next (R94; log entry 9). -/
def State.withFetchWord (s : State) (nbits w : Nat) : State := placeCommand (tableWord nbits w) s

end Sys2Proof.Machine
end

