-- ==== Sys2Proof/Safety.lean ====
section
/-! DEFINITION. The terms claims about runs are stated in: the invariant of the block, what a buffer holds, and the
condition under which a turn cannot stop the machine. -/

namespace Sys2Proof.Machine

/-- "The buffer holds `m = MSG[0..LEN)`" (R153): every cell of the message is specified, and these are its bytes. -/
def State.holds (s : State) (m : List Byte) : Prop := s.msg.readBytes 0 s.msgLen = some m

/-- The values STATUS.ERR can have: 4 and 7 to 15 are never written (R31, R180, R181). -/
def legalErr (e : BitVec 4) : Bool := e.toNat ≤ 6 && e.toNat != 4

/-- The invariant of the block. -/
structure State.Inv (s : State) : Prop where
  /-- The buffer is in its canonical form. -/
  canonical : s.msg.wf
  /-- Every specified cell is one of the `MSG_CAP` cells (R42). -/
  window : s.msg.inWindow
  /-- `BUSY = 1` exactly when `pending` is not none (R43). -/
  busy_pending : s.status.busy = s.pending.isSome
  /-- ERR holds a code that is written (R31, U13). -/
  err_legal : legalErr s.status.err = true
  /-- While a command is pending, DONE, PADFB and ERR are 0 (R46, R94). -/
  pending_flags : s.status.busy = true → s.status.done = false ∧ s.status.padfb = false ∧ s.status.err = 0
  /-- A fallback is no error (R46, R182, R183). -/
  fallback_no_error : s.status.padfb = true → s.status.err = 0

/-- Every cell of the message is specified: the host's duty of R219. -/
def State.messageSpecified (s : State) : Prop := ∀ a < s.msgLen, s.msg.read a ≠ none

/-- The turn reads no unspecified cell: the only way a turn can stop the machine is excluded (U6). -/
def turnSpecified (t : Turn) (s : State) : Prop :=
  match t with
  | .engine => s.messageSpecified
  | .read off => ∀ j, decodeOffset off = some (.msg j) → ∀ k < 4, s.msg.read (4 * j + k) ≠ none
  | .write _ _ => True
  | .reset => True

/-- A turn of the host: a bus access. -/
def Turn.isAccess : Turn → Bool
  | .engine => false
  | .read _ => true
  | .write _ _ => true
  | .reset => false

/-- The next turn resets the block (R210). -/
def resetComes (s : State) : Prop := ∃ ts, s.schedule = .reset :: ts

/-- The next turn is a host write of an aligned offset in `lo .. hi - 1`, with BUSY = 0 (R61, R65, R67): an accepted
write, if the offsets there are mapped and writable. -/
def hostWritesIn (lo hi : Nat) (s : State) : Prop :=
  s.status.busy = false ∧ ∃ off w ts, s.schedule = .write off w :: ts ∧ lo ≤ off ∧ off < hi ∧ off % 4 = 0

/-- The next turn is a host write of STATUS with bit 1 = 1, with BUSY = 0 (R29). -/
def hostClearsDone (s : State) : Prop :=
  s.status.busy = false ∧ ∃ w ts, s.schedule = .write 0x008 w :: ts ∧ w.getLsbD 1 = true

/-- The next turn is the engine's, and a command is pending: the step is the engine's step of that command (R95;
that the engine moves when no turn is left is log entry 2). -/
def engineRuns (s : State) : Prop :=
  s.pending ≠ none ∧ (s.schedule = [] ∨ ∃ ts, s.schedule = .engine :: ts)

/-- The first MSG cell a command stores to and how many cells, when it completes without error (R69, R93). -/
def storedRange (i : Instr) (s : State) : Nat × Nat :=
  match i with
  | .pad => (s.msgLen, padLen s.msgLen)
  | .unpad => (0, 0)
  | .xor => (0, 0)
  | .inc => (0, 0)
  | .ecbEnc => (0, s.msgLen + padLen s.msgLen)
  | .ecbDec => (0, s.msgLen)
  | .cbcEnc => (0, s.msgLen + padLen s.msgLen)
  | .cbcDec => (0, s.msgLen)
  | .ctrEnc => (0, s.msgLen + padLen s.msgLen + blockBytes)
  | .ctrDec => (0, s.msgLen - blockBytes)

/-- An outcome with its next state changed by `f`. -/
def mapNext (f : State → State) : Host.Outcome State Fault Refusal → Host.Outcome State Fault Refusal
  | .next s => .next (f s)
  | .fault e => .fault e
  | .refused r => .refused r

end Sys2Proof.Machine
end

