-- ==== Sys2Proof/Certificates/Slice0/Obligations.lean ====
section
/-! DEFINITION. The statements for the provers. Each docstring names the rules of spec/ it formalises.
`Config.E`, `Config.D`, `Config.draw` and `Config.msgCap` are open: every statement holds whatever they are. -/

open Sys2Proof Sys2Proof.Machine

/-! ### Parameters and named functions -/

/-- R8: `D(k, E(k, x)) = x` and `E(k, D(k, x)) = x`. -/
def Obligations.CipherPairInverts : Prop :=
  ∀ k x : Block, Config.D k (Config.E k x) = x ∧ Config.E k (Config.D k x) = x

/-- R10, R11: the OPEN parameters keep the limits the spec sets. -/
def Obligations.ParametersAreLegal : Prop :=
  legalCapacity Config.msgCap = true ∧ legalPlacement Config.msgCap Config.base Config.addrW = true

/-- R14: `be(x)` is the sum of `x[i] * 256^(15-i)`, `be^-1(n)` is the block whose big-endian value is `n`, for `0 <= n < 2^128`, and every block is one. -/
def Obligations.BigEndianReadingIsOneToOne : Prop :=
  (∀ n < 2 ^ 128, be (beInv n) = n) ∧
  ∀ x : Block, be x = ∑ i : Fin 16, x[i.val].toNat * 256 ^ (15 - i.val) ∧ be x < 2 ^ 128 ∧ beInv (be x) = x

/-- R71: `ungroup` is the exact inverse of `group`, and storing `ungroup` of blocks stores block `i` at `16i`. -/
def Obligations.UngroupInvertsGroup : Prop :=
  (∀ s : List Byte, s.length % 16 = 0 → ungroup (group s) = s ∧ (group s).length = s.length / 16 ∧
    ∀ i < s.length / 16, (group s)[i]? = some (blockOfBytes ((s.drop (16 * i)).take 16))) ∧
  ∀ (m : Memory) (bs : List Block) (i : Nat) (b : Block), bs[i]? = some b →
    (m.writeBytes 0 (ungroup bs)).readBytes (16 * i) 16 = some b.toList

/-- R115: the padded length is a multiple of 16, 1 to 16 bytes longer, and an aligned message gets a full block. -/
def Obligations.PadLengthBound : Prop :=
  ∀ s : List Byte, (pad s).length % 16 = 0 ∧ s.length + 1 ≤ (pad s).length ∧ (pad s).length ≤ s.length + 16 ∧
    (s.length % 16 = 0 → pad s = s ++ List.replicate 16 0x10#8)

/-- R111: the outcomes of `unpad`, byte by byte. -/
def Obligations.UnpadOutcomes : Prop :=
  (unpad [] false = .fallback ∧ unpad [] true = .invalid) ∧
  ∀ (s : List Byte) (last : Byte), s[s.length - 1]? = some last →
    (last.toNat = 0 ∨ s.length < last.toNat → unpad s false = .fallback ∧ unpad s true = .invalid) ∧
    (1 ≤ last.toNat → last.toNat ≤ s.length →
      unpad s false = .ok (s.take (s.length - last.toNat)) ∧
      ((∀ j, s.length - last.toNat ≤ j → j < s.length → s[j]? = some last) →
        unpad s true = .ok (s.take (s.length - last.toNat))) ∧
      (∀ j b, s.length - last.toNat ≤ j → s[j]? = some b → b ≠ last → unpad s true = .invalid))

/-- R116: `unpad(pad(s), strict) = Ok(s)`; a PAD and then an UNPAD, in either mode, restore LEN and leave the
message unchanged. The last clause holds whether or not the cells of the message are specified: there it rests on
log entry 7 (DEDUCED: UNPAD reads only the cells of R111). -/
def Obligations.UnpadInvertsPad : Prop :=
  (∀ (s : List Byte) (strict : Bool), unpad (pad s) strict = .ok s) ∧
  (∀ s : List Byte, ∃ r : Byte, (pad s)[(pad s).length - 1]? = some r ∧ 1 ≤ r.toNat ∧ r.toNat ≤ (pad s).length ∧
    ∀ j, (pad s).length - r.toNat ≤ j → j < (pad s).length → (pad s)[j]? = some r) ∧
  ∀ (s : State) (c : Ctrl), s.msgLen < Config.msgCap →
    ∃ t u, exec .pad s = .next t ∧ exec .unpad { t with ctrl := c } = .next u ∧ u.len = s.len ∧
      ∀ a < s.msgLen, u.msg.read a = s.msg.read a

/-- R132: the laws of `xor16`. -/
def Obligations.XorLaws : Prop :=
  ∀ a b c : Block, xor16 a b = xor16 b a ∧ xor16 (xor16 a b) b = a ∧ xor16 a a = Block.zero ∧
    xor16 a Block.zero = a ∧ xor16 (xor16 a b) c = xor16 a (xor16 b c)

/-- R140, R142: the byte form of `inc16` is the integer form; it is a bijection of period dividing `2^128`. -/
def Obligations.IncIsBigEndianPlusOne : Prop :=
  (∀ c : Block, inc16 c = beInv ((be c + 1) % 2 ^ 128) ∧ be (inc16 c) = (be c + 1) % 2 ^ 128) ∧
  Function.Bijective inc16 ∧
  (∀ (k : Nat) (c : Block), inc16Iter k c = beInv ((be c + k) % 2 ^ 128)) ∧
  (∀ c : Block, inc16Iter (2 ^ 128) c = c) ∧
  inc16 (Vector.replicate 16 0xFF#8) = Block.zero

/-- R163: with a zero IV, the second of two equal blocks encrypts differently exactly when the first ciphertext
block is not zero. -/
def Obligations.CbcEqualBlocksDiffer : Prop :=
  ∀ (k x : Block) (rest : List Block), ∃ (c0 c1 : Block) (cs : List Block),
    cbcEncrypt k Block.zero (x :: x :: rest) = c0 :: c1 :: cs ∧ c0 = Config.E k x ∧
    c1 = Config.E k (xor16 x c0) ∧ (c1 ≠ c0 ↔ xor16 x c0 ≠ x) ∧ (xor16 x c0 ≠ x ↔ c0 ≠ Block.zero)

/-- R161, R162: decrypting with another IV changes the first block by the difference of the two IVs, and no other
block. -/
def Obligations.CbcWrongIvTouchesFirstBlock : Prop :=
  ∀ (k iv iv' : Block) (cs : List Block) (i : Nat),
    (cbcDecrypt k iv' cs)[0]? = (cbcDecrypt k iv cs)[0]?.map (fun p => xor16 p (xor16 iv iv')) ∧
    (cbcDecrypt k iv' cs)[i + 1]? = (cbcDecrypt k iv cs)[i + 1]?

/-- R172: the keystream block of block `i` is `E(KEY, inc16^i(nonce))`, the whole nonce being the counter. -/
def Obligations.CtrKeystreamByIndex : Prop :=
  ∀ (k n b : Block) (bs : List Block) (i : Nat), bs[i]? = some b →
    (ctrApply k n bs)[i]? = some (xor16 b (Config.E k (inc16Iter i n))) ∧
    inc16Iter i n = beInv ((be n + i) % 2 ^ 128)

/-! ### Reset -/

/-- R48: what reset leaves. -/
def Obligations.ResetValues : Prop :=
  State.reset.ctrl = ⟨false, false, false⟩ ∧ State.reset.status = ⟨false, false, false, 0⟩ ∧ State.reset.len = 0 ∧
  State.reset.key = Block.zero ∧ State.reset.iv = Block.zero ∧ State.reset.opa = Block.zero ∧
  State.reset.opb = Block.zero ∧ State.reset.res = Block.zero ∧ State.reset.nonce = Block.zero ∧
  (∀ a, State.reset.msg.read a = none) ∧ State.reset.pending = none ∧ State.reset.irq = false

/-- R211: a reset at any time, a command pending or not, abandons it and sets every register to its reset value;
no completion happens. That the turns after the reset stay scheduled is the model's choice (log entry 2). -/
def Obligations.ResetAbandonsCommand : Prop :=
  ∀ (s : State) (ts : List Turn), s.schedule = .reset :: ts →
    ∃ t, step s = .next t ∧ t.ctrl = ⟨false, false, false⟩ ∧ t.status = ⟨false, false, false, 0⟩ ∧ t.len = 0 ∧
      t.key = Block.zero ∧ t.iv = Block.zero ∧ t.opa = Block.zero ∧ t.opb = Block.zero ∧ t.res = Block.zero ∧
      t.nonce = Block.zero ∧ (∀ a, t.msg.read a = none) ∧ t.pending = none ∧ t.irq = false ∧ t.schedule = ts

/-- The invariant holds after reset (R43, R48). -/
def Obligations.ResetMeetsInvariant : Prop := State.reset.Inv

/-! ### The register port -/

/-- R61, R64: the mapped offsets are those of R24, and an access to any other offset raises a bus error and
changes no state. -/
def Obligations.OffsetMapIsExact : Prop :=
  (∀ (off : Nat) (g : Target), decodeOffset off = some g ↔ off = g.offset ∧ g.isMapped = true) ∧
  (∀ off, decodeOffset off = none ↔ off % 4 ≠ 0 ∨ 0x018 ≤ off ∧ off < 0x020 ∨ 0x080 ≤ off ∧ off < 0x1000 ∨
    0x1000 + Config.msgCap ≤ off) ∧
  ∀ (off : Nat) (w : Word) (s : State), decodeOffset off = none →
    hostRead off s = .next (addReply .busError s) ∧ hostWrite off w s = addReply .busError s

/-- R67, R186: which accesses raise a bus error, and that such an access has no effect but its reply. -/
def Obligations.BusErrorsAreExact : Prop :=
  ∀ (off : Nat) (w : Word) (s : State),
    (busWrite off w s = none ↔ decodeOffset off = none ∨ s.status.busy = true ∨ off = 0x010 ∨ off = 0x014 ∨
      0x060 ≤ off ∧ off < 0x070) ∧
    (busRead off s = .busError ↔ decodeOffset off = none ∨
      s.status.busy = true ∧ off ≠ 0x000 ∧ off ≠ 0x008 ∧ off ≠ 0x010 ∧ off ≠ 0x014) ∧
    (busWrite off w s = none → hostWrite off w s = addReply .busError s) ∧
    (busRead off s = .busError → hostRead off s = .next (addReply .busError s))

/-- R65: the read and write effect of each mapped offset while BUSY = 0, and that a read changes nothing. -/
def Obligations.PortEffects : Prop :=
  ∀ (s : State) (w : Word), s.status.busy = false →
    (busRead 0x000 s = .data (ctrlWord s.ctrl) ∧ busRead 0x004 s = .data 0 ∧
      busRead 0x008 s = .data (statusWord s.status) ∧ busRead 0x00C s = .data s.len ∧
      busRead 0x010 s = .data (BitVec.ofNat 32 Config.msgCap) ∧ busRead 0x014 s = .data 0x00000010#32) ∧
    (∀ j : Fin 4, busRead (0x020 + 4 * j.val) s = .data 0 ∧
      busRead (0x030 + 4 * j.val) s = .data (blockWord s.iv j) ∧
      busRead (0x040 + 4 * j.val) s = .data (blockWord s.opa j) ∧
      busRead (0x050 + 4 * j.val) s = .data (blockWord s.opb j) ∧
      busRead (0x060 + 4 * j.val) s = .data (blockWord s.res j) ∧
      busRead (0x070 + 4 * j.val) s = .data (blockWord s.nonce j)) ∧
    (∀ (j : Nat) (b0 b1 b2 b3 : Byte), 4 * j < Config.msgCap → s.msg.read (4 * j) = some b0 →
      s.msg.read (4 * j + 1) = some b1 → s.msg.read (4 * j + 2) = some b2 → s.msg.read (4 * j + 3) = some b3 →
      busRead (0x1000 + 4 * j) s = .data (wordOfLanes b0 b1 b2 b3)) ∧
    (busWrite 0x000 w s = some { s with ctrl := ⟨w.getLsbD 0, w.getLsbD 1, w.getLsbD 2⟩ } ∧
      busWrite 0x004 w s = some { s with pending := some w, status := ⟨true, false, false, 0⟩ } ∧
      busWrite 0x008 w s =
        some (if w.getLsbD 1 = true then { s with status := { s.status with done := false } } else s) ∧
      busWrite 0x00C w s = some { s with len := w } ∧ busWrite 0x010 w s = none ∧ busWrite 0x014 w s = none) ∧
    (∀ j : Fin 4, busWrite (0x020 + 4 * j.val) w s = some { s with key := setBlockWord s.key j w } ∧
      busWrite (0x030 + 4 * j.val) w s = some { s with iv := setBlockWord s.iv j w } ∧
      busWrite (0x040 + 4 * j.val) w s = some { s with opa := setBlockWord s.opa j w } ∧
      busWrite (0x050 + 4 * j.val) w s = some { s with opb := setBlockWord s.opb j w } ∧
      busWrite (0x060 + 4 * j.val) w s = none ∧
      busWrite (0x070 + 4 * j.val) w s = some { s with nonce := setBlockWord s.nonce j w }) ∧
    (∀ j : Nat, 4 * j < Config.msgCap →
      busWrite (0x1000 + 4 * j) w s = some { s with msg := s.msg.writeBytes (4 * j) (lanes w) }) ∧
    (∀ (off : Nat) (t : State), hostRead off s = .next t → ∃ r, t = addReply r s)

/-- R62: the lane order of the 16-byte registers and of the MSG window, on writes and on reads. -/
def Obligations.LaneOrder : Prop :=
  (∀ (x : Block) (j m : Fin 4) (w : Word),
    (setBlockWord x j w)[4 * j.val + m.val]? = some (w.extractLsb' (8 * m.val) 8) ∧
    (blockWord x j).extractLsb' (8 * m.val) 8 = x[4 * j.val + m.val]'(by omega) ∧
    ∀ i : Fin 16, i.val / 4 ≠ j.val → (setBlockWord x j w)[i.val] = x[i.val]) ∧
  (∀ (mem : Memory) (j : Nat) (m : Fin 4) (w : Word),
    (mem.writeBytes (4 * j) (lanes w)).read (4 * j + m.val) = some (w.extractLsb' (8 * m.val) 8)) ∧
  ∀ (mem : Memory) (j : Nat) (v : Word), msgWord mem j = some v →
    ∀ m : Fin 4, mem.read (4 * j + m.val) = some (v.extractLsb' (8 * m.val) 8)

/-- R62, R65: a word written to LEN, IV, OPA, OPB, NONCE or MSG reads back as written. -/
def Obligations.WrittenWordReadsBack : Prop :=
  ∀ (off : Nat) (w : Word) (s t : State), busWrite off w s = some t →
    off = 0x00C ∨ 0x030 ≤ off ∧ off < 0x060 ∨ 0x070 ≤ off ∧ off < 0x080 ∨ 0x1000 ≤ off →
    busRead off t = .data w

/-- R26: CTRL bits 31:3 are ignored by a write and read as 0. -/
def Obligations.CtrlReservedBits : Prop :=
  ∀ (s : State) (w : Word), s.status.busy = false →
    ∃ t, busWrite 0x000 w s = some t ∧ busRead 0x000 t = .data (w &&& 0x00000007#32)

/-- R32: STATUS bits 7:3 and 31:12 read as 0, and a write of STATUS changes at most DONE and is never refused
while BUSY = 0. The bits that are not reserved are the four fields. -/
def Obligations.StatusReservedBits : Prop :=
  ∀ (s : State) (w : Word),
    (∃ v, busRead 0x008 s = .data v ∧ (∀ n, 3 ≤ n ∧ n ≤ 7 ∨ 12 ≤ n → v.getLsbD n = false) ∧
      v.getLsbD 0 = s.status.busy ∧ v.getLsbD 1 = s.status.done ∧ v.getLsbD 2 = s.status.padfb ∧
      v.extractLsb' 8 4 = s.status.err) ∧
    (s.status.busy = false → ∃ b, busWrite 0x008 w s = some { s with status := { s.status with done := b } } ∧
      b = (s.status.done && !w.getLsbD 1))

/-- R94: the acceptance of a CMD write, and the bus error of one while BUSY = 1. -/
def Obligations.CmdWriteAccepts : Prop :=
  ∀ (s : State) (w : Word),
    (s.status.busy = false →
      hostWrite 0x004 w s = addReply .written { s with pending := some w, status := ⟨true, false, false, 0⟩ }) ∧
    (s.status.busy = true → hostWrite 0x004 w s = addReply .busError s)

/-- R45, R188: `irq` is DONE and IRQ_EN; acceptance and a STATUS write with bit 1 = 1 drop it, IRQ_EN = 0 masks it
and keeps DONE, and every completion, error or not, raises it when IRQ_EN = 1. -/
def Obligations.IrqIsLevelOfDone : Prop :=
  ∀ s : State, s.irq = (s.status.done && s.ctrl.irqEn) ∧
    (∀ (w : Word) (t : State), busWrite 0x004 w s = some t → t.irq = false) ∧
    (∀ (w : Word) (t : State), w.getLsbD 1 = true → busWrite 0x008 w s = some t → t.irq = false) ∧
    (∀ (w : Word) (t : State), w.getLsbD 1 = false → busWrite 0x000 w s = some t →
      t.irq = false ∧ t.status.done = s.status.done) ∧
    (∀ (w : Word) (t : State), s.pending = some w → engineStep s = .next t → t.irq = s.ctrl.irqEn)

/-- R36: no read, of any offset in any state, depends on KEY, and a read of KEY while BUSY = 0 returns 0. -/
def Obligations.KeyIsNeverRead : Prop :=
  ∀ (s : State) (k : Block) (off : Nat),
    busRead off { s with key := k } = busRead off s ∧
    (∀ w, (busWrite off w { s with key := k }).isSome = (busWrite off w s).isSome) ∧
    (s.status.busy = false → 0x020 ≤ off → off < 0x030 → off % 4 = 0 → busRead off s = .data 0)

/-- R25, R33, R36 to R43, R46: which events change each register, each STATUS field, `pending` and each MSG cell: a
reset, an accepted host write of it, or the engine's step of a pending command, and so never the step of an idle
engine (R197). Whose turn it is follows the schedule (log entry 2). -/
def Obligations.OnlyTheseEventsChangeState : Prop :=
  ∀ s t : State, step s = .next t →
    (t.key ≠ s.key → resetComes s ∨ hostWritesIn 0x020 0x030 s) ∧
    (t.iv ≠ s.iv → resetComes s ∨ hostWritesIn 0x030 0x040 s) ∧
    (t.opa ≠ s.opa → resetComes s ∨ hostWritesIn 0x040 0x050 s) ∧
    (t.opb ≠ s.opb → resetComes s ∨ hostWritesIn 0x050 0x060 s) ∧
    (t.nonce ≠ s.nonce → resetComes s ∨ hostWritesIn 0x070 0x080 s) ∧
    (t.ctrl ≠ s.ctrl → resetComes s ∨ hostWritesIn 0x000 0x001 s) ∧
    (t.len ≠ s.len → resetComes s ∨ hostWritesIn 0x00C 0x00D s ∨ engineRuns s) ∧
    (t.pending ≠ s.pending → resetComes s ∨ hostWritesIn 0x004 0x005 s ∨ engineRuns s) ∧
    (t.status.busy ≠ s.status.busy → resetComes s ∨ hostWritesIn 0x004 0x005 s ∨ engineRuns s) ∧
    (t.status.done ≠ s.status.done →
      resetComes s ∨ hostWritesIn 0x004 0x005 s ∨ hostClearsDone s ∨ engineRuns s) ∧
    (t.status.padfb ≠ s.status.padfb → resetComes s ∨ hostWritesIn 0x004 0x005 s ∨ engineRuns s) ∧
    (t.status.err ≠ s.status.err → resetComes s ∨ hostWritesIn 0x004 0x005 s ∨ engineRuns s) ∧
    (t.res ≠ s.res →
      resetComes s ∨ engineRuns s ∧ (s.pending = some (encode .xor) ∨ s.pending = some (encode .inc))) ∧
    ∀ a, t.msg.read a ≠ s.msg.read a → resetComes s ∨
      hostWritesIn (0x1000 + 4 * (a / 4)) (0x1000 + 4 * (a / 4) + 1) s ∨ engineRuns s

/-! ### Decoding and the step -/

/-- R91, R92, R96: exactly the ten words of the opcode map decode, each to its command, and `encode` gives back
every bit of them; every other word is illegal. -/
def Obligations.DecodeEncodeAgree : Prop :=
  (∀ (w : Word) (i : Instr), decode w = .ok i ↔ w = encode i) ∧
  ∀ w : Word, (∃ e, decode w = .error e) ↔ w.toNat / 16 ≠ 0 ∨ w.toNat % 16 = 0 ∨ 0xB ≤ w.toNat % 16

/-- R92: an illegal word is rejected by the name of what is wrong with it; the well-formed words are the others. -/
def Obligations.IllegalWordsAreNamed : Prop :=
  ∀ w : Word, (w.toNat / 16 ≠ 0 → decode w = .error .reservedBits) ∧
    (w.toNat / 16 = 0 → w.toNat % 16 = 0 ∨ 0xB ≤ w.toNat % 16 → decode w = .error .reservedOpcode) ∧
    (wellFormedWord w = true ↔ ∃ i, decode w = .ok i)

/-- R91: words of the opcode map, bit by bit, as the table numbers them. -/
def Obligations.TableWordsDecode : Prop :=
  decodeTableWord 32 0b00000000000000000000000000000001 = some .pad ∧
  decodeTableWord 32 0b00000000000000000000000000000011 = some .xor ∧
  decodeTableWord 32 0b00000000000000000000000000000100 = some .inc ∧
  decodeTableWord 32 0b00000000000000000000000000000110 = some .ecbDec ∧
  decodeTableWord 32 0b00000000000000000000000000000111 = some .cbcEnc ∧
  decodeTableWord 32 0b00000000000000000000000000001010 = some .ctrDec ∧
  decodeTableWord 32 0b00000000000000000000000000001011 = none ∧
  decodeTableWord 32 0b00000000000000000000000000010001 = none

/-- R92: an illegal word is accepted like any other, and the engine's step then raises IllegalCommand and has no
other effect. -/
def Obligations.IllegalWordCompletes : Prop :=
  ∀ (s : State) (w : Word), w.toNat / 16 ≠ 0 ∨ w.toNat % 16 = 0 ∨ 0xB ≤ w.toNat % 16 →
    (s.status.busy = false → ∃ t, busWrite 0x004 w s = some t ∧ t.pending = some w ∧ t.status.busy = true) ∧
    (s.pending = some w → engineStep s = .next { s with pending := none, status := ⟨false, true, false, 6⟩ })

/-- R95, R96: when the pending word decodes to `i`, the engine's turn, and the step when no turn is scheduled, is
`exec i`; the step adds only that it takes its turn off the schedule (log entry 2). R92: on a word that decodes to
none it completes with IllegalCommand. R197: with no command pending the engine changes nothing (log entry 11). -/
def Obligations.StepRunsDecodedCommand : Prop :=
  (∀ (s : State) (w : Word) (i : Instr), s.pending = some w → decode w = .ok i →
    (s.schedule = [] → step s = exec i s) ∧
    (∀ ts, s.schedule = .engine :: ts → step s = exec i { s with schedule := ts })) ∧
  (∀ (s : State) (w : Word) (e : DecodeError), s.pending = some w → decode w = .error e →
    (s.schedule = [] → step s = .next { s with pending := none, status := ⟨false, true, false, 6⟩ }) ∧
    (∀ ts, s.schedule = .engine :: ts →
      step s = .next { s with schedule := ts, pending := none, status := ⟨false, true, false, 6⟩ })) ∧
  (∀ s : State, s.pending = none →
    (s.schedule = [] → step s = .next s) ∧
    (∀ ts, s.schedule = .engine :: ts → step s = .next { s with schedule := ts })) ∧
  ∀ s : State, (s.schedule = [] → step s = engineStep s) ∧
    ∀ ts, s.schedule = .engine :: ts → step s = engineStep { s with schedule := ts }

/-- R60, R68, R75, R186: when the next turn is a host access, the step is that access whole, at any BUSY: a write that
the port takes changes the block as `busWrite` says and is acknowledged, a read gets the word of `busRead`, and a bus
error changes nothing; nothing else happens but that the turn leaves the schedule. The schedule and the record of the
replies are the model's (log entries 2 and 3), and so is the stop on an unspecified cell (log entry 1). -/
def Obligations.StepServesHostAccess : Prop :=
  ∀ (s : State) (ts : List Turn) (off : Nat),
    (∀ w : Word, s.schedule = .write off w :: ts →
      step s = .next (hostWrite off w { s with schedule := ts }) ∧
      (∀ t, busWrite off w { s with schedule := ts } = some t →
        step s = .next { t with replies := s.replies ++ [.written] } ∧ t.schedule = ts ∧ t.replies = s.replies) ∧
      (busWrite off w { s with schedule := ts } = none →
        step s = .next { s with schedule := ts, replies := s.replies ++ [.busError] })) ∧
    (s.schedule = .read off :: ts →
      step s = hostRead off { s with schedule := ts } ∧
      (∀ v, busRead off s = .data v →
        step s = .next { s with schedule := ts, replies := s.replies ++ [.data v] }) ∧
      (busRead off s = .busError →
        step s = .next { s with schedule := ts, replies := s.replies ++ [.busError] }) ∧
      (busRead off s = .unspecified → step s = .fault .unspecifiedHostRead))

/-- R67, R77, R95: a host access while a command is pending changes nothing but the replies, and the engine's step
gives the same result before it and after it. -/
def Obligations.EngineResultIgnoresWhen : Prop :=
  ∀ (s : State) (t : Turn), s.status.busy = true → t.isAccess = true →
    ∃ r, runTurn t s = .next (addReply r s) ∧ engineStep (addReply r s) = mapNext (addReply r) (engineStep s)

/-- R75, R220: with a command pending and only host accesses to come, the machine serves them all, the block
unchanged, and then the engine's step is the next. That the engine moves when no turn is left is log entry 2. -/
def Obligations.EngineMovesAfterHost : Prop :=
  ∀ s : State, s.status.busy = true → (∀ t ∈ s.schedule, t.isAccess = true) →
    ∃ t, Sys2Proof.core.run s.schedule.length s = .next t ∧ t.schedule = [] ∧ t.blockPart = s.blockPart ∧
      step t = engineStep t

/-! ### The commands -/

/-- R113: PAD, on every length. -/
def Obligations.PadCommand : Prop :=
  ∀ s : State,
    (s.msgLen < Config.msgCap →
      exec .pad s = .next
        { s with
          msg := s.msg.writeBytes s.msgLen
            (List.replicate (16 - s.msgLen % 16) (BitVec.ofNat 8 (16 - s.msgLen % 16)))
          len := BitVec.ofNat 32 (s.msgLen + (16 - s.msgLen % 16))
          pending := none
          status := ⟨false, true, false, 0⟩ }) ∧
    (Config.msgCap ≤ s.msgLen →
      exec .pad s = .next { s with pending := none, status := ⟨false, true, false, 5⟩ })

/-- R114: UNPAD on a message whose cells are all specified, and on a LEN above MSG_CAP. -/
def Obligations.UnpadCommand : Prop :=
  (∀ (s : State) (m : List Byte), s.msgLen ≤ Config.msgCap → s.holds m →
    exec .unpad s = .next
      (match unpad m s.ctrl.strictUnpad with
        | .ok t => { s with
            len := BitVec.ofNat 32 t.length, pending := none, status := ⟨false, true, false, 0⟩ }
        | .fallback => { s with pending := none, status := ⟨false, true, true, 0⟩ }
        | .invalid => { s with pending := none, status := ⟨false, true, false, 3⟩ })) ∧
  ∀ s : State, Config.msgCap < s.msgLen →
    exec .unpad s = .next { s with pending := none, status := ⟨false, true, false, 5⟩ }

/-- R111 (log entry 7, DEDUCED): which cells UNPAD reads, what it does when only those are specified, and that it
stops when one of them is not. -/
def Obligations.UnpadReadsOnlyTrailer : Prop :=
  ∀ s : State, s.msgLen ≤ Config.msgCap → 0 < s.msgLen →
    (s.msg.read (s.msgLen - 1) = none → exec .unpad s = .fault .unspecifiedCommandRead) ∧
    ∀ n : Byte, s.msg.read (s.msgLen - 1) = some n →
      (n.toNat = 0 ∨ s.msgLen < n.toNat →
        (s.ctrl.strictUnpad = false →
          exec .unpad s = .next { s with pending := none, status := ⟨false, true, true, 0⟩ }) ∧
        (s.ctrl.strictUnpad = true →
          exec .unpad s = .next { s with pending := none, status := ⟨false, true, false, 3⟩ })) ∧
      (1 ≤ n.toNat → n.toNat ≤ s.msgLen →
        (s.ctrl.strictUnpad = false ∨ (∀ j < n.toNat, s.msg.read (s.msgLen - n.toNat + j) = some n) →
          exec .unpad s = .next
            { s with
              len := BitVec.ofNat 32 (s.msgLen - n.toNat)
              pending := none
              status := ⟨false, true, false, 0⟩ }) ∧
        (s.ctrl.strictUnpad = true → ∀ t, s.msg.readBytes (s.msgLen - n.toNat) n.toNat = some t →
          (∃ b ∈ t, b ≠ n) →
          exec .unpad s = .next { s with pending := none, status := ⟨false, true, false, 3⟩ }) ∧
        (s.ctrl.strictUnpad = true → s.msg.readBytes (s.msgLen - n.toNat) n.toNat = none →
          exec .unpad s = .fault .unspecifiedCommandRead))

/-- R130, R131: XOR, in every state. -/
def Obligations.XorCommand : Prop :=
  (∀ s : State, exec .xor s = .next
    { s with res := xor16 s.opa s.opb, pending := none, status := ⟨false, true, false, 0⟩ }) ∧
  ∀ (a b : Block) (i : Fin 16), (xor16 a b)[i.val] = a[i.val] ^^^ b[i.val]

/-- R141: INC, in every state. -/
def Obligations.IncCommand : Prop :=
  ∀ s : State, exec .inc s = .next
    { s with res := inc16 s.opa, pending := none, status := ⟨false, true, false, 0⟩ }

/-- R150: ECB_ENC, on every length. That ERR = 5 comes whatever the cells hold, at LEN = MSG_CAP too, is log entry 8
(DEDUCED from R185). -/
def Obligations.EcbEncCommand : Prop :=
  (∀ (s : State) (m : List Byte), s.msgLen < Config.msgCap → s.holds m →
    exec .ecbEnc s = .next
      { s with
        msg := s.msg.writeBytes 0 (ungroup ((group (pad m)).map fun b => Config.E s.key b))
        len := BitVec.ofNat 32 (pad m).length
        pending := none
        status := ⟨false, true, false, 0⟩ }) ∧
  ∀ s : State, Config.msgCap ≤ s.msgLen →
    exec .ecbEnc s = .next { s with pending := none, status := ⟨false, true, false, 5⟩ }

/-- R151: ECB_DEC, on every length. -/
def Obligations.EcbDecCommand : Prop :=
  (∀ (s : State) (c p : List Byte), s.msgLen ≤ Config.msgCap → s.msgLen % 16 = 0 → s.holds c →
    p = ungroup ((group c).map fun b => Config.D s.key b) →
    exec .ecbDec s = .next
      (match unpad p s.ctrl.strictUnpad with
        | .ok t => { s with
            msg := s.msg.writeBytes 0 p, len := BitVec.ofNat 32 t.length
            pending := none, status := ⟨false, true, false, 0⟩ }
        | .fallback => { s with
            msg := s.msg.writeBytes 0 p, pending := none, status := ⟨false, true, true, 0⟩ }
        | .invalid => { s with pending := none, status := ⟨false, true, false, 3⟩ })) ∧
  (∀ s : State, Config.msgCap < s.msgLen →
    exec .ecbDec s = .next { s with pending := none, status := ⟨false, true, false, 5⟩ }) ∧
  ∀ s : State, s.msgLen ≤ Config.msgCap → s.msgLen % 16 ≠ 0 →
    exec .ecbDec s = .next { s with pending := none, status := ⟨false, true, false, 1⟩ }

/-- R152: ECB has no chaining: after ECB_ENC, block `i` of the buffer is `E(KEY, p_i)`, and identical plaintext
blocks give identical ciphertext blocks. -/
def Obligations.EcbBlocksAreIndependent : Prop :=
  ∀ (s : State) (m : List Byte), s.msgLen < Config.msgCap → s.holds m →
    ∃ t, exec .ecbEnc s = .next t ∧
      (∀ i < (pad m).length / 16, t.msg.readBytes (16 * i) 16 =
        some (Config.E s.key (blockOfBytes (((pad m).drop (16 * i)).take 16))).toList) ∧
      ∀ i j, i < (pad m).length / 16 → j < (pad m).length / 16 →
        ((pad m).drop (16 * i)).take 16 = ((pad m).drop (16 * j)).take 16 →
        t.msg.readBytes (16 * i) 16 = t.msg.readBytes (16 * j) 16

/-- R153: the ECB round trip, in either unpad mode. -/
def Obligations.EcbRoundTrip : Prop :=
  ∀ (s : State) (m : List Byte) (c : Ctrl), s.msgLen < Config.msgCap → s.holds m →
    ∃ t u, exec .ecbEnc s = .next t ∧ exec .ecbDec { t with ctrl := c } = .next u ∧ u.len = s.len ∧ u.holds m

/-- R160: CBC_ENC, on every length. The chain is given by its first block and its step. That ERR = 5 comes whatever
the cells hold, at LEN = MSG_CAP too, is log entry 8 (DEDUCED from R185). -/
def Obligations.CbcEncCommand : Prop :=
  (∀ (s : State) (m : List Byte), s.msgLen < Config.msgCap → s.holds m →
    exec .cbcEnc s = .next
      { s with
        msg := s.msg.writeBytes 0 (ungroup (cbcEncrypt s.key s.iv (group (pad m))))
        len := BitVec.ofNat 32 (pad m).length
        pending := none
        status := ⟨false, true, false, 0⟩ }) ∧
  (∀ s : State, Config.msgCap ≤ s.msgLen →
    exec .cbcEnc s = .next { s with pending := none, status := ⟨false, true, false, 5⟩ }) ∧
  ∀ (k prev b c : Block) (bs : List Block) (i : Nat),
    (cbcEncrypt k prev (b :: bs))[0]? = some (Config.E k (xor16 b prev)) ∧
    ((cbcEncrypt k prev (b :: bs))[i]? = some c →
      (cbcEncrypt k prev (b :: bs))[i + 1]? = bs[i]?.map fun x => Config.E k (xor16 x c))

/-- R161: CBC_DEC, on every length; the chain is given by its first block and its step. -/
def Obligations.CbcDecCommand : Prop :=
  (∀ (s : State) (c p : List Byte), s.msgLen ≤ Config.msgCap → s.msgLen % 16 = 0 → s.holds c →
    p = ungroup (cbcDecrypt s.key s.iv (group c)) →
    exec .cbcDec s = .next
      (match unpad p s.ctrl.strictUnpad with
        | .ok t => { s with
            msg := s.msg.writeBytes 0 p, len := BitVec.ofNat 32 t.length
            pending := none, status := ⟨false, true, false, 0⟩ }
        | .fallback => { s with
            msg := s.msg.writeBytes 0 p, pending := none, status := ⟨false, true, true, 0⟩ }
        | .invalid => { s with pending := none, status := ⟨false, true, false, 3⟩ })) ∧
  (∀ s : State, Config.msgCap < s.msgLen →
    exec .cbcDec s = .next { s with pending := none, status := ⟨false, true, false, 5⟩ }) ∧
  (∀ s : State, s.msgLen ≤ Config.msgCap → s.msgLen % 16 ≠ 0 →
    exec .cbcDec s = .next { s with pending := none, status := ⟨false, true, false, 1⟩ }) ∧
  ∀ (k prev c d : Block) (cs : List Block) (i : Nat),
    (cbcDecrypt k prev (c :: cs))[0]? = some (xor16 (Config.D k c) prev) ∧
    ((c :: cs)[i]? = some d →
      (cbcDecrypt k prev (c :: cs))[i + 1]? = cs[i]?.map fun x => xor16 (Config.D k x) d)

/-- R164: the CBC round trip, with KEY and IV unchanged, in either unpad mode. -/
def Obligations.CbcRoundTrip : Prop :=
  ∀ (s : State) (m : List Byte) (c : Ctrl), s.msgLen < Config.msgCap → s.holds m →
    ∃ t u, exec .cbcEnc s = .next t ∧ exec .cbcDec { t with ctrl := c } = .next u ∧ u.len = s.len ∧ u.holds m

/-- R170: CTR_ENC, on every length and with either nonce source. That ERR = 5 comes whatever the cells hold when
`P + 16 > MSG_CAP` is log entry 8 (DEDUCED from R185); the counter of draws is the model's (log entry 4). -/
def Obligations.CtrEncCommand : Prop :=
  (∀ (s : State) (m : List Byte) (n : Block), s.msgLen + (16 - s.msgLen % 16) + 16 ≤ Config.msgCap → s.holds m →
    n = (if s.ctrl.nonceSel = true then s.nonce else Config.draw s.draws) →
    exec .ctrEnc s = .next
      { s with
        msg := s.msg.writeBytes 0 (ungroup (ctrApply s.key n (group (pad m))) ++ n.toList)
        len := BitVec.ofNat 32 ((pad m).length + 16)
        pending := none
        status := ⟨false, true, false, 0⟩
        draws := if s.ctrl.nonceSel = true then s.draws else s.draws + 1 }) ∧
  (∀ s : State, Config.msgCap < s.msgLen + (16 - s.msgLen % 16) + 16 →
    exec .ctrEnc s = .next { s with pending := none, status := ⟨false, true, false, 5⟩ }) ∧
  ∀ (k v b : Block) (bs : List Block), ctrApply k v [] = [] ∧
    ctrApply k v (b :: bs) = xor16 b (Config.E k v) :: ctrApply k (inc16 v) bs

/-- R171: CTR_DEC, on every length. -/
def Obligations.CtrDecCommand : Prop :=
  (∀ (s : State) (c p : List Byte), s.msgLen ≤ Config.msgCap → 16 ≤ s.msgLen → s.msgLen % 16 = 0 → s.holds c →
    p = ungroup (ctrApply s.key (blockOfBytes (c.drop (s.msgLen - 16))) (group (c.take (s.msgLen - 16)))) →
    exec .ctrDec s = .next
      (match unpad p s.ctrl.strictUnpad with
        | .ok t => { s with
            msg := s.msg.writeBytes 0 p, len := BitVec.ofNat 32 t.length
            pending := none, status := ⟨false, true, false, 0⟩ }
        | .fallback => { s with
            msg := s.msg.writeBytes 0 p, len := BitVec.ofNat 32 (s.msgLen - 16)
            pending := none, status := ⟨false, true, true, 0⟩ }
        | .invalid => { s with pending := none, status := ⟨false, true, false, 3⟩ })) ∧
  (∀ s : State, Config.msgCap < s.msgLen →
    exec .ctrDec s = .next { s with pending := none, status := ⟨false, true, false, 5⟩ }) ∧
  (∀ s : State, s.msgLen ≤ Config.msgCap → s.msgLen < 16 →
    exec .ctrDec s = .next { s with pending := none, status := ⟨false, true, false, 2⟩ }) ∧
  ∀ s : State, s.msgLen ≤ Config.msgCap → 16 ≤ s.msgLen → s.msgLen % 16 ≠ 0 →
    exec .ctrDec s = .next { s with pending := none, status := ⟨false, true, false, 1⟩ }

/-- R174: the CTR round trip, for every nonce, drawn or from NONCE, in either unpad mode. -/
def Obligations.CtrRoundTrip : Prop :=
  ∀ (s : State) (m : List Byte) (c : Ctrl), s.msgLen + (16 - s.msgLen % 16) + 16 ≤ Config.msgCap → s.holds m →
    ∃ t u, exec .ctrEnc s = .next t ∧ exec .ctrDec { t with ctrl := c } = .next u ∧ u.len = s.len ∧ u.holds m

/-! ### Frames, errors and invariants -/

/-- R93, R36 to R41, R182: what no command writes, which commands write RES, LEN and the draw counter, and that
every command ends in a completion. -/
def Obligations.CommandFrame : Prop :=
  ∀ (i : Instr) (s t : State), exec i s = .next t →
    (t.ctrl = s.ctrl ∧ t.key = s.key ∧ t.iv = s.iv ∧ t.opa = s.opa ∧ t.opb = s.opb ∧ t.nonce = s.nonce ∧
      t.schedule = s.schedule ∧ t.replies = s.replies) ∧
    (i ≠ .xor → i ≠ .inc → t.res = s.res) ∧
    (i = .xor ∨ i = .inc → t.len = s.len) ∧
    (i ≠ .ctrEnc ∨ s.ctrl.nonceSel = true → t.draws = s.draws) ∧
    (t.pending = none ∧ t.status.busy = false ∧ t.status.done = true)

/-- R69, R93: a command changes no MSG cell outside the cells its rule lists. -/
def Obligations.CommandMemoryFrame : Prop :=
  ∀ (i : Instr) (s t : State) (a : Nat), exec i s = .next t →
    a < (storedRange i s).1 ∨ (storedRange i s).1 + (storedRange i s).2 ≤ a → t.msg.read a = s.msg.read a

/-- R183, R187: an error completion leaves everything but STATUS and `pending` as it was. -/
def Obligations.ErrorDiscardsEverything : Prop :=
  ∀ (s t : State) (w : Word), s.pending = some w → engineStep s = .next t → t.status.err ≠ 0 →
    t = { s with pending := none, status := ⟨false, true, false, t.status.err⟩ }

/-- R180, R181: who raises each error code, and why; 4 and 7 to 15 are never raised; an error records only
its code. -/
def Obligations.ErrorCodesByCause : Prop :=
  (∀ (i : Instr) (s t : State), exec i s = .next t →
    (t.status.err = 1 → (i = .ecbDec ∨ i = .cbcDec ∨ i = .ctrDec) ∧ s.msgLen % 16 ≠ 0) ∧
    (t.status.err = 2 → i = .ctrDec ∧ s.msgLen < 16) ∧
    (t.status.err = 3 → (i = .unpad ∨ i = .ecbDec ∨ i = .cbcDec ∨ i = .ctrDec) ∧ s.ctrl.strictUnpad = true) ∧
    (t.status.err = 5 → i ≠ .xor ∧ i ≠ .inc ∧
      (Config.msgCap < s.msgLen ∨ Config.msgCap < (storedRange i s).1 + (storedRange i s).2)) ∧
    (t.status.err = 0 ∨ t.status.err = 1 ∨ t.status.err = 2 ∨ t.status.err = 3 ∨ t.status.err = 5) ∧
    (t.status.err ≠ 0 → t = { s with pending := none, status := ⟨false, true, false, t.status.err⟩ })) ∧
  ∀ (s t : State) (w : Word), s.pending = some w → engineStep s = .next t →
    (t.status.err = 6 ↔ ∃ e, decode w = .error e) ∧ t.status.err ≠ 4 ∧ t.status.err.toNat ≤ 6

/-- R185: the order of the checks: the error of the first check that fails, whatever the later ones would say and
whatever the buffer holds: that the output check does not need the cells of the message is log entry 8 (DEDUCED). -/
def Obligations.ErrorCheckOrder : Prop :=
  (∀ (s : State) (w : Word) (e : DecodeError), s.pending = some w → decode w = .error e →
    engineStep s = .next (raiseErr .illegalCommand s)) ∧
  ∀ s : State,
    (Config.msgCap < s.msgLen →
      ∀ i : Instr, i ≠ .xor → i ≠ .inc → exec i s = .next (raiseErr .capacityExceeded s)) ∧
    (s.msgLen ≤ Config.msgCap → s.msgLen < 16 → exec .ctrDec s = .next (raiseErr .truncatedCiphertext s)) ∧
    (s.msgLen ≤ Config.msgCap → s.msgLen % 16 ≠ 0 →
      exec .ecbDec s = .next (raiseErr .invalidLength s) ∧ exec .cbcDec s = .next (raiseErr .invalidLength s) ∧
      (16 ≤ s.msgLen → exec .ctrDec s = .next (raiseErr .invalidLength s))) ∧
    (s.msgLen ≤ Config.msgCap → Config.msgCap < s.msgLen + padLen s.msgLen →
      exec .pad s = .next (raiseErr .capacityExceeded s) ∧ exec .ecbEnc s = .next (raiseErr .capacityExceeded s) ∧
      exec .cbcEnc s = .next (raiseErr .capacityExceeded s)) ∧
    (s.msgLen ≤ Config.msgCap → Config.msgCap < s.msgLen + padLen s.msgLen + 16 →
      exec .ctrEnc s = .next (raiseErr .capacityExceeded s)) ∧
    ∀ c : List Byte, s.msgLen ≤ Config.msgCap → s.holds c →
      (unpad c s.ctrl.strictUnpad = .invalid → exec .unpad s = .next (raiseErr .invalidPadding s)) ∧
      (s.msgLen % 16 = 0 → unpad (ungroup (ecbDecrypt s.key (group c))) s.ctrl.strictUnpad = .invalid →
        exec .ecbDec s = .next (raiseErr .invalidPadding s)) ∧
      (s.msgLen % 16 = 0 → unpad (ungroup (cbcDecrypt s.key s.iv (group c))) s.ctrl.strictUnpad = .invalid →
        exec .cbcDec s = .next (raiseErr .invalidPadding s)) ∧
      (s.msgLen % 16 = 0 → 16 ≤ s.msgLen →
        unpad (ungroup (ctrApply s.key (blockOfBytes (c.drop (s.msgLen - 16))) (group (c.take (s.msgLen - 16)))))
          s.ctrl.strictUnpad = .invalid →
        exec .ctrDec s = .next (raiseErr .invalidPadding s))

/-- R9, R173: a step uses up at most one answer of the randomness source, and only a CTR_ENC with NONCE_SEL = 0
that completes without error does. The counter is the model's (log entry 4). -/
def Obligations.DrawOnlyForFreshNonce : Prop :=
  ∀ s t : State, step s = .next t →
    t.draws = s.draws ∨
      t.draws = s.draws + 1 ∧ s.pending = some (encode .ctrEnc) ∧ s.ctrl.nonceSel = false ∧ t.status.err = 0

/-- Every step keeps the invariant: the buffer's form and window, BUSY exactly when a command is pending, the legal
error codes, and the flags while a command is pending (R42, R43, R46, U13). -/
def Obligations.StepKeepsInvariant : Prop :=
  ∀ s t : State, s.Inv → step s = .next t → t.Inv

/-- U6, D34 (log entry 1): no turn is refused, a turn that reads no unspecified cell answers a next state, and a
fault is the engine's or a host read's under its own name. -/
def Obligations.TurnsStopOnlyOnUnspecified : Prop :=
  ∀ (t : Turn) (s : State), (∀ r, runTurn t s ≠ .refused r) ∧
    (turnSpecified t s → ∃ u, runTurn t s = .next u) ∧
    ∀ f, runTurn t s = .fault f → t = .engine ∧ f = .unspecifiedCommandRead ∧ s.pending ≠ none ∨
      ∃ off, t = .read off ∧ f = .unspecifiedHostRead

/-- U6, D34 (log entry 1): a mode command whose length checks pass stops when a cell of its message is unspecified,
and so does a host read of a MSG word with an unspecified cell. -/
def Obligations.UnspecifiedCellsStop : Prop :=
  (∀ s : State, s.msg.readBytes 0 s.msgLen = none →
    (s.msgLen + (16 - s.msgLen % 16) ≤ Config.msgCap →
      exec .ecbEnc s = .fault .unspecifiedCommandRead ∧ exec .cbcEnc s = .fault .unspecifiedCommandRead) ∧
    (s.msgLen + (16 - s.msgLen % 16) + 16 ≤ Config.msgCap → exec .ctrEnc s = .fault .unspecifiedCommandRead) ∧
    (s.msgLen ≤ Config.msgCap → s.msgLen % 16 = 0 →
      exec .ecbDec s = .fault .unspecifiedCommandRead ∧ exec .cbcDec s = .fault .unspecifiedCommandRead ∧
      exec .ctrDec s = .fault .unspecifiedCommandRead)) ∧
  ∀ (s : State) (j k : Nat), s.status.busy = false → 4 * j < Config.msgCap → k < 4 →
    s.msg.read (4 * j + k) = none → hostRead (0x1000 + 4 * j) s = .fault .unspecifiedHostRead
end

