-- ==== Sys2Proof/Laws/Config.lean ====
section
/-! SUPPORT. What the provers may use of the OPEN parameter `MSG_CAP` (R10), whatever its selector is. -/

namespace Sys2Proof

theorem msgCap_mod : Config.msgCap % 16 = 0 := by unfold Config.msgCap; omega

theorem le_msgCap : 32 ≤ Config.msgCap := by unfold Config.msgCap; omega

theorem msgCap_le : Config.msgCap ≤ 2 ^ 31 := by unfold Config.msgCap; omega

/-- A length of at most `MSG_CAP` bytes fits in LEN. -/
theorem toNat_ofNat_of_le_msgCap {n : Nat} (h : n ≤ Config.msgCap) : (BitVec.ofNat 32 n).toNat = n := by
  have := msgCap_le
  rw [BitVec.toNat_ofNat, Nat.mod_eq_of_lt (by omega)]

end Sys2Proof
end

