-- ==== Sys2Proof/Laws/Functions.lean ====
section
/-! SUPPORT. The small lemmas of the named functions: lengths, bytes, and the shape of what they return. -/

namespace Sys2Proof.Machine

theorem padLen_pos (n : Nat) : 1 ≤ padLen n := by unfold padLen blockBytes; omega

theorem padLen_le (n : Nat) : padLen n ≤ 16 := by unfold padLen blockBytes; omega

theorem add_padLen_mod (n : Nat) : (n + padLen n) % 16 = 0 := by unfold padLen blockBytes; omega

@[simp] theorem padBytes_length (n : Nat) : (padBytes n).length = padLen n := by simp [padBytes]

@[simp] theorem pad_length (s : List Byte) : (pad s).length = s.length + padLen s.length := by simp [pad]

theorem pad_length_mod (s : List Byte) : (pad s).length % 16 = 0 := by rw [pad_length]; exact add_padLen_mod _

/-- The last byte of a trailer, as a number, is its length. -/
theorem padLen_toNat (n : Nat) : (BitVec.ofNat 8 (padLen n)).toNat = padLen n := by
  have := padLen_le n
  rw [BitVec.toNat_ofNat, Nat.mod_eq_of_lt (by omega)]

@[simp] theorem blockOfBytes_getElem (s : List Byte) (i : Nat) (h : i < 16) : (blockOfBytes s)[i] = s.getD i 0 := by
  simp [blockOfBytes]

/-- 16 bytes and the block made of them are the same bytes. -/
theorem toList_blockOfBytes (s : List Byte) (h : s.length = 16) : (blockOfBytes s).toList = s := by
  apply List.ext_getElem
  · simp [h]
  · intro i h1 h2
    rw [Vector.getElem_toList, blockOfBytes_getElem _ _ (by omega)]
    simp [h2]

theorem blockOfBytes_toList (b : Block) : blockOfBytes b.toList = b := by
  apply Vector.ext
  intro i h
  rw [blockOfBytes_getElem _ _ h]
  simp [h]

@[simp] theorem groupN_length (n : Nat) (s : List Byte) : (groupN n s).length = n := by
  induction n generalizing s with
  | zero => rfl
  | succ n ih => simp [groupN, ih]

@[simp] theorem group_length (s : List Byte) : (group s).length = s.length / 16 := groupN_length _ s

@[simp] theorem ungroup_nil : ungroup [] = [] := rfl

@[simp] theorem ungroup_cons (b : Block) (bs : List Block) : ungroup (b :: bs) = b.toList ++ ungroup bs := rfl

@[simp] theorem ungroup_length (bs : List Block) : (ungroup bs).length = 16 * bs.length := by
  induction bs with
  | nil => rfl
  | cons b bs ih => simp [ih]; omega

theorem groupN_ungroup (bs : List Block) : groupN bs.length (ungroup bs) = bs := by
  induction bs with
  | nil => rfl
  | cons b bs ih =>
    rw [List.length_cons, groupN, ungroup_cons, List.take_left' (by simp), List.drop_left' (by simp),
      blockOfBytes_toList, ih]

/-- Grouping the bytes of a list of blocks gives the blocks. -/
theorem group_ungroup (bs : List Block) : group (ungroup bs) = bs := by
  have h : (ungroup bs).length / blockBytes = bs.length := by rw [ungroup_length]; simp [blockBytes]
  rw [group, h, groupN_ungroup]

@[simp] theorem xor16_getElem (a b : Block) (i : Nat) (h : i < 16) : (xor16 a b)[i] = a[i] ^^^ b[i] := by
  simp [xor16]

@[simp] theorem ecbEncrypt_length (k : Block) (bs : List Block) : (ecbEncrypt k bs).length = bs.length := by
  simp [ecbEncrypt]

@[simp] theorem ecbDecrypt_length (k : Block) (bs : List Block) : (ecbDecrypt k bs).length = bs.length := by
  simp [ecbDecrypt]

@[simp] theorem cbcEncrypt_length (k p : Block) (bs : List Block) : (cbcEncrypt k p bs).length = bs.length := by
  induction bs generalizing p with
  | nil => rfl
  | cons b bs ih => simp [cbcEncrypt, ih]

@[simp] theorem cbcDecrypt_length (k p : Block) (bs : List Block) : (cbcDecrypt k p bs).length = bs.length := by
  induction bs generalizing p with
  | nil => rfl
  | cons b bs ih => simp [cbcDecrypt, ih]

@[simp] theorem ctrApply_length (k v : Block) (bs : List Block) : (ctrApply k v bs).length = bs.length := by
  induction bs generalizing v with
  | nil => rfl
  | cons b bs ih => simp [ctrApply, ih]

/-- The bytes of as many blocks as a block-aligned sequence has are as many as the sequence has. -/
theorem ungroup_length_of_group {bs : List Block} {s : List Byte} (h : bs.length = (group s).length)
    (hs : s.length % 16 = 0) : (ungroup bs).length = s.length := by
  rw [ungroup_length, h, group_length]; omega

/-- The empty sequence has no trailer (R111). -/
theorem unpad_empty {s : List Byte} (strict : Bool) (h : s.length = 0) : unpad s strict = malformed strict := by
  unfold unpad; rw [if_pos h]

/-- A last byte that fails the length bound (R111). -/
theorem unpad_malformed {s : List Byte} (strict : Bool) (h : s.length ≠ 0)
    (hn : (s.getD (s.length - 1) 0).toNat = 0 ∨ (s.getD (s.length - 1) 0).toNat > s.length) :
    unpad s strict = malformed strict := by
  unfold unpad; rw [if_neg h]; dsimp only; rw [if_pos hn]

/-- A last byte `n` within the bound: `n` bytes are stripped, in strict mode if they all equal `n` (R111). -/
theorem unpad_bounded {s : List Byte} (strict : Bool) (h : s.length ≠ 0)
    (hn : ¬ ((s.getD (s.length - 1) 0).toNat = 0 ∨ (s.getD (s.length - 1) 0).toNat > s.length)) :
    unpad s strict =
      if strict = true ∧ ¬ (s.drop (s.length - (s.getD (s.length - 1) 0).toNat)).all (· == s.getD (s.length - 1) 0)
      then .invalid else .ok (s.take (s.length - (s.getD (s.length - 1) 0).toNat)) := by
  unfold unpad; rw [if_neg h]; dsimp only; rw [if_neg hn]

/-- What `unpad` strips is a suffix of 1 to `len(s)` bytes (R111). -/
theorem unpad_ok {s t : List Byte} {strict : Bool} (h : unpad s strict = .ok t) :
    ∃ n, 1 ≤ n ∧ n ≤ s.length ∧ t = s.take (s.length - n) := by
  unfold unpad malformed at h
  dsimp only at h
  split at h
  · split at h <;> cases h
  · split at h
    · split at h <;> cases h
    · split at h
      · cases h
      · rename_i h1 h2 h3
        cases h
        exact ⟨_, by omega, by omega, rfl⟩

/-- The lenient unpad never returns Invalid (R111, R184). -/
theorem unpad_lenient_ne_invalid (s : List Byte) : unpad s false ≠ .invalid := by
  unfold unpad malformed
  dsimp only
  split
  · simp
  · split <;> simp

/-- The hardened unpad never returns Fallback (R111, R184). -/
theorem unpad_strict_ne_fallback (s : List Byte) : unpad s true ≠ .fallback := by
  unfold unpad malformed
  dsimp only
  split
  · simp
  · split
    · simp
    · split <;> simp

end Sys2Proof.Machine
end

