-- ==== Sys2Proof/Laws/Memory.lean ====
section
/-! SUPPORT. The laws of the message buffer: what a cell reads after a write, that every operation keeps the
canonical form and the window, and that equal contents are equal data. -/

namespace Sys2Proof.Machine

@[simp] theorem Memory.read_nil (a : Nat) : Memory.read [] a = none := rfl

theorem Memory.read_cons (c : Host.Cell) (m : Memory) (a : Nat) :
    Memory.read (c :: m) a = if a = c.1 then some c.2 else if a < c.1 then none else Memory.read m a := rfl

theorem Memory.write_cons (c : Host.Cell) (m : Memory) (a : Nat) (b : Byte) :
    Memory.write (c :: m) a b =
      if a < c.1 then (a, b) :: c :: m else if a = c.1 then (a, b) :: m else c :: Memory.write m a b := rfl

/-- A cell holds the byte written to it (R42). -/
@[simp] theorem Memory.read_write_same (m : Memory) (a : Nat) (b : Byte) : (m.write a b).read a = some b := by
  induction m with
  | nil => simp [Memory.write, Memory.read]
  | cons c m ih =>
    rw [Memory.write_cons]
    split
    · simp [Memory.read]
    · split
      · simp [Memory.read]
      · rename_i h1 h2
        simp [Memory.read, h1, h2, ih]

/-- A write leaves every other cell alone (R42). -/
theorem Memory.read_write_other (m : Memory) {a x : Nat} (b : Byte) (h : x ≠ a) :
    (m.write a b).read x = m.read x := by
  induction m with
  | nil =>
    simp only [Memory.write, Memory.read_cons, Memory.read_nil, if_neg h]
    split <;> rfl
  | cons c m ih =>
    rw [Memory.write_cons]
    split
    · rename_i h1
      rw [Memory.read_cons, if_neg h]
      split
      · rename_i h2
        dsimp only at h2
        rw [Memory.read_cons, if_neg (by omega), if_pos (by omega)]
      · rfl
    · split
      · rename_i h1 h2
        subst h2
        simp only [Memory.read_cons, if_neg h]
      · rename_i h1 h2
        simp only [Memory.read_cons, ih]

/-- What a cell reads after one write. -/
theorem Memory.read_write (m : Memory) (a x : Nat) (b : Byte) :
    (m.write a b).read x = if x = a then some b else m.read x := by
  split
  · next h => subst h; exact m.read_write_same x b
  · next h => exact m.read_write_other b h

/-- A cell listed after a write was written or was listed before. -/
theorem Memory.mem_write (m : Memory) (a : Nat) (b : Byte) (c : Host.Cell) (h : c ∈ m.write a b) :
    c = (a, b) ∨ c ∈ m := by
  induction m with
  | nil => exact .inl (by simpa [Memory.write] using h)
  | cons d m ih =>
    rw [Memory.write_cons] at h
    split at h
    · exact (List.mem_cons.mp h)
    · split at h
      · rcases List.mem_cons.mp h with h | h
        · exact .inl h
        · exact .inr (List.mem_cons_of_mem d h)
      · rcases List.mem_cons.mp h with h | h
        · exact .inr (by simp [h])
        · exact (ih h).imp_right (List.mem_cons_of_mem d)

/-- A write keeps the canonical form. -/
theorem Memory.write_wf (m : Memory) (a : Nat) (b : Byte) (h : m.wf) : (m.write a b).wf := by
  induction m with
  | nil => simp [Memory.wf, Memory.write]
  | cons c m ih =>
    have hc := List.pairwise_cons.mp h
    rw [Memory.write_cons]
    split
    · rename_i h1
      refine List.pairwise_cons.mpr ⟨fun d hd => ?_, h⟩
      rcases List.mem_cons.mp hd with rfl | hd
      · exact h1
      · exact Nat.lt_trans h1 (hc.1 d hd)
    · split
      · rename_i h2
        exact List.pairwise_cons.mpr ⟨fun d hd => h2 ▸ hc.1 d hd, hc.2⟩
      · rename_i h1 h2
        refine List.pairwise_cons.mpr ⟨fun d hd => ?_, ih hc.2⟩
        rcases Memory.mem_write m a b d hd with rfl | hd
        · dsimp only; omega
        · exact hc.1 d hd

/-- A write below `MSG_CAP` stays in the window. -/
theorem Memory.write_inWindow (m : Memory) {a : Nat} (b : Byte) (h : m.inWindow) (ha : a < Config.msgCap) :
    (m.write a b).inWindow := by
  intro c hc
  rcases Memory.mem_write m a b c hc with rfl | hc
  · exact ha
  · exact h c hc

@[simp] theorem Memory.writeBytes_nil (m : Memory) (a : Nat) : m.writeBytes a [] = m := rfl

theorem Memory.writeBytes_cons (m : Memory) (a : Nat) (b : Byte) (bs : List Byte) :
    m.writeBytes a (b :: bs) = (m.write a b).writeBytes (a + 1) bs := rfl

/-- What a cell reads after `MemWrite(a, n, bs)` (R15). -/
theorem Memory.read_writeBytes (m : Memory) (a x : Nat) (bs : List Byte) :
    (m.writeBytes a bs).read x = if a ≤ x ∧ x < a + bs.length then bs[x - a]? else m.read x := by
  induction bs generalizing m a with
  | nil => rw [Memory.writeBytes_nil, if_neg (by simp only [List.length_nil]; omega)]
  | cons b bs ih =>
    rw [Memory.writeBytes_cons, ih, Memory.read_write]
    by_cases h1 : a + 1 ≤ x ∧ x < a + 1 + bs.length
    · rw [if_pos h1, if_pos (by simp only [List.length_cons]; omega)]
      obtain ⟨k, rfl⟩ : ∃ k, x = a + 1 + k := ⟨x - (a + 1), by omega⟩
      rw [show a + 1 + k - (a + 1) = k by omega, show a + 1 + k - a = k + 1 by omega]
      simp
    · rw [if_neg h1]
      by_cases h2 : x = a
      · subst h2; simp
      · rw [if_neg h2, if_neg (by simp only [List.length_cons]; omega)]

/-- `MemWrite` leaves the cells outside its range alone (R15, R69). -/
theorem Memory.read_writeBytes_outside (m : Memory) {a x : Nat} (bs : List Byte)
    (h : x < a ∨ a + bs.length ≤ x) : (m.writeBytes a bs).read x = m.read x := by
  rw [Memory.read_writeBytes, if_neg (by omega)]

/-- `MemWrite` keeps the canonical form. -/
theorem Memory.writeBytes_wf (m : Memory) (a : Nat) (bs : List Byte) (h : m.wf) : (m.writeBytes a bs).wf := by
  induction bs generalizing m a with
  | nil => exact h
  | cons b bs ih => exact ih _ _ (m.write_wf a b h)

/-- `MemWrite` within `MSG_CAP` stays in the window. -/
theorem Memory.writeBytes_inWindow (m : Memory) (a : Nat) (bs : List Byte) (h : m.inWindow)
    (ha : a + bs.length ≤ Config.msgCap) : (m.writeBytes a bs).inWindow := by
  induction bs generalizing m a with
  | nil => exact h
  | cons b bs ih =>
    simp only [List.length_cons] at ha
    exact ih _ _ (m.write_inWindow b h (by omega)) (by omega)

@[simp] theorem Memory.readBytes_zero (m : Memory) (a : Nat) : m.readBytes a 0 = some [] := rfl

/-- What `MemRead` says: the list of the bytes of its cells (R15). -/
theorem Memory.readBytes_eq_some (m : Memory) (a n : Nat) (bs : List Byte) :
    m.readBytes a n = some bs ↔ bs.length = n ∧ ∀ i < n, m.read (a + i) = bs[i]? := by
  induction n generalizing a bs with
  | zero =>
    constructor
    · intro h; simp only [Memory.readBytes_zero, Option.some.injEq] at h; subst h; simp
    · rintro ⟨h, -⟩; rw [List.length_eq_zero_iff.mp h]; rfl
  | succ n ih =>
    rw [Memory.readBytes]
    constructor
    · intro h
      split at h
      · rename_i b cs hb hcs
        cases h
        obtain ⟨hl, hi⟩ := (ih _ _).mp hcs
        refine ⟨by simp [hl], fun i hn => ?_⟩
        cases i with
        | zero => simpa using hb
        | succ i =>
          have := hi i (by omega)
          rw [show a + 1 + i = a + (i + 1) by omega] at this
          simpa using this
      · cases h
    · rintro ⟨hl, hi⟩
      cases bs with
      | nil => simp at hl
      | cons b cs =>
        have hb : m.read a = some b := by simpa using hi 0 (by omega)
        have hcs : m.readBytes (a + 1) n = some cs :=
          (ih _ _).mpr ⟨by simpa using hl, fun i hn => by
            have := hi (i + 1) (by omega)
            rw [show a + 1 + i = a + (i + 1) by omega, this]; simp⟩
        rw [hb, hcs]

theorem Memory.readBytes_length {m : Memory} {a n : Nat} {bs : List Byte} (h : m.readBytes a n = some bs) :
    bs.length = n := ((m.readBytes_eq_some a n bs).mp h).1

theorem Memory.readBytes_getElem {m : Memory} {a n i : Nat} {bs : List Byte} (h : m.readBytes a n = some bs)
    (hi : i < n) : m.read (a + i) = bs[i]? := ((m.readBytes_eq_some a n bs).mp h).2 i hi

/-- `MemRead` finds no value exactly when one of its cells is unspecified (R42). -/
theorem Memory.readBytes_eq_none (m : Memory) (a n : Nat) :
    m.readBytes a n = none ↔ ∃ i < n, m.read (a + i) = none := by
  induction n generalizing a with
  | zero => simp
  | succ n ih =>
    rw [Memory.readBytes]
    constructor
    · intro h
      cases hb : m.read a with
      | none => exact ⟨0, by omega, hb⟩
      | some b =>
        cases hc : m.readBytes (a + 1) n with
        | none =>
          obtain ⟨i, hi, he⟩ := (ih (a + 1)).mp hc
          exact ⟨i + 1, by omega, by rw [← he]; congr 1; omega⟩
        | some cs => rw [hb, hc] at h; cases h
    · rintro ⟨i, hi, he⟩
      cases i with
      | zero => rw [show m.read a = none from he]
      | succ i =>
        have : m.readBytes (a + 1) n = none :=
          (ih (a + 1)).mpr ⟨i, by omega, by rw [← he]; congr 1; omega⟩
        rw [this]; cases m.read a <;> rfl

/-- `MemRead` of what `MemWrite` wrote. -/
theorem Memory.readBytes_writeBytes (m : Memory) (a : Nat) (bs : List Byte) :
    (m.writeBytes a bs).readBytes a bs.length = some bs := by
  refine (Memory.readBytes_eq_some _ _ _ _).mpr ⟨rfl, fun i hi => ?_⟩
  rw [Memory.read_writeBytes, if_pos (by omega)]
  congr 1; omega

/-- Two buffers whose cells agree on a range give the same `MemRead` of it. -/
theorem Memory.readBytes_congr {m m' : Memory} {a n : Nat} (h : ∀ i < n, m.read (a + i) = m'.read (a + i)) :
    m.readBytes a n = m'.readBytes a n := by
  induction n generalizing a with
  | zero => rfl
  | succ n ih =>
    have h0 : m.read a = m'.read a := h 0 (by omega)
    have h1 : m.readBytes (a + 1) n = m'.readBytes (a + 1) n :=
      ih fun i hi => by
        have := h (i + 1) (by omega)
        rwa [show a + (i + 1) = a + 1 + i by omega] at this
    simp only [Memory.readBytes, h0, h1]

/-- A cell below every listed one is unspecified. -/
theorem Memory.read_below (m : Memory) {a : Nat} (h : ∀ c ∈ m, a < c.1) : m.read a = none := by
  cases m with
  | nil => rfl
  | cons c m =>
    have := h c (by simp)
    rw [Memory.read_cons, if_neg (by omega), if_pos this]

/-- Canonical buffers with the same contents are the same data. -/
theorem Memory.ext_of_wf {m m' : Memory} (h : m.wf) (h' : m'.wf) (he : ∀ a, m.read a = m'.read a) : m = m' := by
  induction m generalizing m' with
  | nil =>
    cases m' with
    | nil => rfl
    | cons c m' => have := he c.1; simp [Memory.read_cons] at this
  | cons c m ih =>
    cases m' with
    | nil => have := he c.1; simp [Memory.read_cons] at this
    | cons d m' =>
      have hc := List.pairwise_cons.mp h
      have hd := List.pairwise_cons.mp h'
      have h1 : c.1 = d.1 := by
        have e1 := he c.1
        have e2 := he d.1
        simp only [Memory.read_cons] at e1 e2
        by_contra hne
        rcases Nat.lt_or_gt_of_ne hne with hlt | hlt
        · simp [hne, hlt] at e1
        · rw [if_neg (Ne.symm hne), if_pos hlt] at e2; simp at e2
      have h2 : c = d := by
        have e1 := he c.1
        simp only [Memory.read_cons, if_true, h1] at e1
        exact Prod.ext h1 (Option.some.inj e1)
      subst h2
      congr 1
      refine ih hc.2 hd.2 fun a => ?_
      have e := he a
      simp only [Memory.read_cons] at e
      by_cases ha : a = c.1
      · subst ha
        rw [Memory.read_below m hc.1, Memory.read_below m' hd.1]
      · by_cases hl : a < c.1
        · rw [Memory.read_below m fun x hx => Nat.lt_trans hl (hc.1 x hx),
            Memory.read_below m' fun x hx => Nat.lt_trans hl (hd.1 x hx)]
        · simpa [ha, hl] using e

/-- The buffer after reset is canonical, in the window, and every cell is unspecified (R48). -/
theorem Memory.reset_wf : State.reset.msg.wf := List.Pairwise.nil

theorem Memory.reset_inWindow : State.reset.msg.inWindow := by simp [State.reset]

end Sys2Proof.Machine
end

