-- ==== Sys2Proof/Laws/State.lean ====
section
/-! SUPPORT. What each update of the state does to each field, by rfl. -/

namespace Sys2Proof.Machine

@[simp] theorem storeMessage_ctrl (bs : List Byte) (n : Nat) (s : State) : (storeMessage bs n s).ctrl = s.ctrl := rfl
@[simp] theorem storeMessage_status (bs : List Byte) (n : Nat) (s : State) : (storeMessage bs n s).status = s.status := rfl
@[simp] theorem storeMessage_len (bs : List Byte) (n : Nat) (s : State) : (storeMessage bs n s).len = BitVec.ofNat 32 n := rfl
@[simp] theorem storeMessage_key (bs : List Byte) (n : Nat) (s : State) : (storeMessage bs n s).key = s.key := rfl
@[simp] theorem storeMessage_iv (bs : List Byte) (n : Nat) (s : State) : (storeMessage bs n s).iv = s.iv := rfl
@[simp] theorem storeMessage_opa (bs : List Byte) (n : Nat) (s : State) : (storeMessage bs n s).opa = s.opa := rfl
@[simp] theorem storeMessage_opb (bs : List Byte) (n : Nat) (s : State) : (storeMessage bs n s).opb = s.opb := rfl
@[simp] theorem storeMessage_res (bs : List Byte) (n : Nat) (s : State) : (storeMessage bs n s).res = s.res := rfl
@[simp] theorem storeMessage_nonce (bs : List Byte) (n : Nat) (s : State) : (storeMessage bs n s).nonce = s.nonce := rfl
@[simp] theorem storeMessage_msg (bs : List Byte) (n : Nat) (s : State) : (storeMessage bs n s).msg = s.msg.writeBytes 0 bs := rfl
@[simp] theorem storeMessage_pending (bs : List Byte) (n : Nat) (s : State) : (storeMessage bs n s).pending = s.pending := rfl
@[simp] theorem storeMessage_draws (bs : List Byte) (n : Nat) (s : State) : (storeMessage bs n s).draws = s.draws := rfl
@[simp] theorem storeMessage_schedule (bs : List Byte) (n : Nat) (s : State) : (storeMessage bs n s).schedule = s.schedule := rfl
@[simp] theorem storeMessage_replies (bs : List Byte) (n : Nat) (s : State) : (storeMessage bs n s).replies = s.replies := rfl

@[simp] theorem acceptCommand_ctrl (w : Word) (s : State) : (acceptCommand w s).ctrl = s.ctrl := rfl
@[simp] theorem acceptCommand_status (w : Word) (s : State) : (acceptCommand w s).status = statusAccepted := rfl
@[simp] theorem acceptCommand_len (w : Word) (s : State) : (acceptCommand w s).len = s.len := rfl
@[simp] theorem acceptCommand_key (w : Word) (s : State) : (acceptCommand w s).key = s.key := rfl
@[simp] theorem acceptCommand_iv (w : Word) (s : State) : (acceptCommand w s).iv = s.iv := rfl
@[simp] theorem acceptCommand_opa (w : Word) (s : State) : (acceptCommand w s).opa = s.opa := rfl
@[simp] theorem acceptCommand_opb (w : Word) (s : State) : (acceptCommand w s).opb = s.opb := rfl
@[simp] theorem acceptCommand_res (w : Word) (s : State) : (acceptCommand w s).res = s.res := rfl
@[simp] theorem acceptCommand_nonce (w : Word) (s : State) : (acceptCommand w s).nonce = s.nonce := rfl
@[simp] theorem acceptCommand_msg (w : Word) (s : State) : (acceptCommand w s).msg = s.msg := rfl
@[simp] theorem acceptCommand_pending (w : Word) (s : State) : (acceptCommand w s).pending = some w := rfl
@[simp] theorem acceptCommand_draws (w : Word) (s : State) : (acceptCommand w s).draws = s.draws := rfl
@[simp] theorem acceptCommand_schedule (w : Word) (s : State) : (acceptCommand w s).schedule = s.schedule := rfl
@[simp] theorem acceptCommand_replies (w : Word) (s : State) : (acceptCommand w s).replies = s.replies := rfl

@[simp] theorem complete_ctrl (b : Bool) (s : State) : (complete b s).ctrl = s.ctrl := rfl
@[simp] theorem complete_status (b : Bool) (s : State) : (complete b s).status = statusCompleted b := rfl
@[simp] theorem complete_len (b : Bool) (s : State) : (complete b s).len = s.len := rfl
@[simp] theorem complete_key (b : Bool) (s : State) : (complete b s).key = s.key := rfl
@[simp] theorem complete_iv (b : Bool) (s : State) : (complete b s).iv = s.iv := rfl
@[simp] theorem complete_opa (b : Bool) (s : State) : (complete b s).opa = s.opa := rfl
@[simp] theorem complete_opb (b : Bool) (s : State) : (complete b s).opb = s.opb := rfl
@[simp] theorem complete_res (b : Bool) (s : State) : (complete b s).res = s.res := rfl
@[simp] theorem complete_nonce (b : Bool) (s : State) : (complete b s).nonce = s.nonce := rfl
@[simp] theorem complete_msg (b : Bool) (s : State) : (complete b s).msg = s.msg := rfl
@[simp] theorem complete_pending (b : Bool) (s : State) : (complete b s).pending = none := rfl
@[simp] theorem complete_draws (b : Bool) (s : State) : (complete b s).draws = s.draws := rfl
@[simp] theorem complete_schedule (b : Bool) (s : State) : (complete b s).schedule = s.schedule := rfl
@[simp] theorem complete_replies (b : Bool) (s : State) : (complete b s).replies = s.replies := rfl

@[simp] theorem raiseErr_ctrl (c : ErrCode) (s : State) : (raiseErr c s).ctrl = s.ctrl := rfl
@[simp] theorem raiseErr_status (c : ErrCode) (s : State) : (raiseErr c s).status = statusFailed c := rfl
@[simp] theorem raiseErr_len (c : ErrCode) (s : State) : (raiseErr c s).len = s.len := rfl
@[simp] theorem raiseErr_key (c : ErrCode) (s : State) : (raiseErr c s).key = s.key := rfl
@[simp] theorem raiseErr_iv (c : ErrCode) (s : State) : (raiseErr c s).iv = s.iv := rfl
@[simp] theorem raiseErr_opa (c : ErrCode) (s : State) : (raiseErr c s).opa = s.opa := rfl
@[simp] theorem raiseErr_opb (c : ErrCode) (s : State) : (raiseErr c s).opb = s.opb := rfl
@[simp] theorem raiseErr_res (c : ErrCode) (s : State) : (raiseErr c s).res = s.res := rfl
@[simp] theorem raiseErr_nonce (c : ErrCode) (s : State) : (raiseErr c s).nonce = s.nonce := rfl
@[simp] theorem raiseErr_msg (c : ErrCode) (s : State) : (raiseErr c s).msg = s.msg := rfl
@[simp] theorem raiseErr_pending (c : ErrCode) (s : State) : (raiseErr c s).pending = none := rfl
@[simp] theorem raiseErr_draws (c : ErrCode) (s : State) : (raiseErr c s).draws = s.draws := rfl
@[simp] theorem raiseErr_schedule (c : ErrCode) (s : State) : (raiseErr c s).schedule = s.schedule := rfl
@[simp] theorem raiseErr_replies (c : ErrCode) (s : State) : (raiseErr c s).replies = s.replies := rfl

@[simp] theorem clearDone_ctrl (s : State) : (clearDone s).ctrl = s.ctrl := rfl
@[simp] theorem clearDone_status (s : State) : (clearDone s).status = statusDoneCleared s.status := rfl
@[simp] theorem clearDone_len (s : State) : (clearDone s).len = s.len := rfl
@[simp] theorem clearDone_key (s : State) : (clearDone s).key = s.key := rfl
@[simp] theorem clearDone_iv (s : State) : (clearDone s).iv = s.iv := rfl
@[simp] theorem clearDone_opa (s : State) : (clearDone s).opa = s.opa := rfl
@[simp] theorem clearDone_opb (s : State) : (clearDone s).opb = s.opb := rfl
@[simp] theorem clearDone_res (s : State) : (clearDone s).res = s.res := rfl
@[simp] theorem clearDone_nonce (s : State) : (clearDone s).nonce = s.nonce := rfl
@[simp] theorem clearDone_msg (s : State) : (clearDone s).msg = s.msg := rfl
@[simp] theorem clearDone_pending (s : State) : (clearDone s).pending = s.pending := rfl
@[simp] theorem clearDone_draws (s : State) : (clearDone s).draws = s.draws := rfl
@[simp] theorem clearDone_schedule (s : State) : (clearDone s).schedule = s.schedule := rfl
@[simp] theorem clearDone_replies (s : State) : (clearDone s).replies = s.replies := rfl

@[simp] theorem addReply_ctrl (r : Reply) (s : State) : (addReply r s).ctrl = s.ctrl := rfl
@[simp] theorem addReply_status (r : Reply) (s : State) : (addReply r s).status = s.status := rfl
@[simp] theorem addReply_len (r : Reply) (s : State) : (addReply r s).len = s.len := rfl
@[simp] theorem addReply_key (r : Reply) (s : State) : (addReply r s).key = s.key := rfl
@[simp] theorem addReply_iv (r : Reply) (s : State) : (addReply r s).iv = s.iv := rfl
@[simp] theorem addReply_opa (r : Reply) (s : State) : (addReply r s).opa = s.opa := rfl
@[simp] theorem addReply_opb (r : Reply) (s : State) : (addReply r s).opb = s.opb := rfl
@[simp] theorem addReply_res (r : Reply) (s : State) : (addReply r s).res = s.res := rfl
@[simp] theorem addReply_nonce (r : Reply) (s : State) : (addReply r s).nonce = s.nonce := rfl
@[simp] theorem addReply_msg (r : Reply) (s : State) : (addReply r s).msg = s.msg := rfl
@[simp] theorem addReply_pending (r : Reply) (s : State) : (addReply r s).pending = s.pending := rfl
@[simp] theorem addReply_draws (r : Reply) (s : State) : (addReply r s).draws = s.draws := rfl
@[simp] theorem addReply_schedule (r : Reply) (s : State) : (addReply r s).schedule = s.schedule := rfl
@[simp] theorem addReply_replies (r : Reply) (s : State) : (addReply r s).replies = s.replies ++ [r] := rfl

@[simp] theorem setSchedule_ctrl (ts : List Turn) (s : State) : (setSchedule ts s).ctrl = s.ctrl := rfl
@[simp] theorem setSchedule_status (ts : List Turn) (s : State) : (setSchedule ts s).status = s.status := rfl
@[simp] theorem setSchedule_len (ts : List Turn) (s : State) : (setSchedule ts s).len = s.len := rfl
@[simp] theorem setSchedule_key (ts : List Turn) (s : State) : (setSchedule ts s).key = s.key := rfl
@[simp] theorem setSchedule_iv (ts : List Turn) (s : State) : (setSchedule ts s).iv = s.iv := rfl
@[simp] theorem setSchedule_opa (ts : List Turn) (s : State) : (setSchedule ts s).opa = s.opa := rfl
@[simp] theorem setSchedule_opb (ts : List Turn) (s : State) : (setSchedule ts s).opb = s.opb := rfl
@[simp] theorem setSchedule_res (ts : List Turn) (s : State) : (setSchedule ts s).res = s.res := rfl
@[simp] theorem setSchedule_nonce (ts : List Turn) (s : State) : (setSchedule ts s).nonce = s.nonce := rfl
@[simp] theorem setSchedule_msg (ts : List Turn) (s : State) : (setSchedule ts s).msg = s.msg := rfl
@[simp] theorem setSchedule_pending (ts : List Turn) (s : State) : (setSchedule ts s).pending = s.pending := rfl
@[simp] theorem setSchedule_draws (ts : List Turn) (s : State) : (setSchedule ts s).draws = s.draws := rfl
@[simp] theorem setSchedule_schedule (ts : List Turn) (s : State) : (setSchedule ts s).schedule = ts := rfl
@[simp] theorem setSchedule_replies (ts : List Turn) (s : State) : (setSchedule ts s).replies = s.replies := rfl

@[simp] theorem useNonce_ctrl (s : State) : (useNonce s).ctrl = s.ctrl := rfl
@[simp] theorem useNonce_status (s : State) : (useNonce s).status = s.status := rfl
@[simp] theorem useNonce_len (s : State) : (useNonce s).len = s.len := rfl
@[simp] theorem useNonce_key (s : State) : (useNonce s).key = s.key := rfl
@[simp] theorem useNonce_iv (s : State) : (useNonce s).iv = s.iv := rfl
@[simp] theorem useNonce_opa (s : State) : (useNonce s).opa = s.opa := rfl
@[simp] theorem useNonce_opb (s : State) : (useNonce s).opb = s.opb := rfl
@[simp] theorem useNonce_res (s : State) : (useNonce s).res = s.res := rfl
@[simp] theorem useNonce_nonce (s : State) : (useNonce s).nonce = s.nonce := rfl
@[simp] theorem useNonce_msg (s : State) : (useNonce s).msg = s.msg := rfl
@[simp] theorem useNonce_pending (s : State) : (useNonce s).pending = s.pending := rfl
@[simp] theorem useNonce_draws (s : State) : (useNonce s).draws = if s.ctrl.nonceSel then s.draws else s.draws + 1 := rfl
@[simp] theorem useNonce_schedule (s : State) : (useNonce s).schedule = s.schedule := rfl
@[simp] theorem useNonce_replies (s : State) : (useNonce s).replies = s.replies := rfl

@[simp] theorem blockPart_ctrl (s : State) : (State.blockPart s).ctrl = s.ctrl := rfl
@[simp] theorem blockPart_status (s : State) : (State.blockPart s).status = s.status := rfl
@[simp] theorem blockPart_len (s : State) : (State.blockPart s).len = s.len := rfl
@[simp] theorem blockPart_key (s : State) : (State.blockPart s).key = s.key := rfl
@[simp] theorem blockPart_iv (s : State) : (State.blockPart s).iv = s.iv := rfl
@[simp] theorem blockPart_opa (s : State) : (State.blockPart s).opa = s.opa := rfl
@[simp] theorem blockPart_opb (s : State) : (State.blockPart s).opb = s.opb := rfl
@[simp] theorem blockPart_res (s : State) : (State.blockPart s).res = s.res := rfl
@[simp] theorem blockPart_nonce (s : State) : (State.blockPart s).nonce = s.nonce := rfl
@[simp] theorem blockPart_msg (s : State) : (State.blockPart s).msg = s.msg := rfl
@[simp] theorem blockPart_pending (s : State) : (State.blockPart s).pending = s.pending := rfl
@[simp] theorem blockPart_draws (s : State) : (State.blockPart s).draws = s.draws := rfl
@[simp] theorem blockPart_schedule (s : State) : (State.blockPart s).schedule = [] := rfl
@[simp] theorem blockPart_replies (s : State) : (State.blockPart s).replies = [] := rfl

@[simp] theorem resetBlock_ctrl (s : State) : (resetBlock s).ctrl = State.reset.ctrl := rfl
@[simp] theorem resetBlock_status (s : State) : (resetBlock s).status = State.reset.status := rfl
@[simp] theorem resetBlock_len (s : State) : (resetBlock s).len = State.reset.len := rfl
@[simp] theorem resetBlock_key (s : State) : (resetBlock s).key = State.reset.key := rfl
@[simp] theorem resetBlock_iv (s : State) : (resetBlock s).iv = State.reset.iv := rfl
@[simp] theorem resetBlock_opa (s : State) : (resetBlock s).opa = State.reset.opa := rfl
@[simp] theorem resetBlock_opb (s : State) : (resetBlock s).opb = State.reset.opb := rfl
@[simp] theorem resetBlock_res (s : State) : (resetBlock s).res = State.reset.res := rfl
@[simp] theorem resetBlock_nonce (s : State) : (resetBlock s).nonce = State.reset.nonce := rfl
@[simp] theorem resetBlock_msg (s : State) : (resetBlock s).msg = State.reset.msg := rfl
@[simp] theorem resetBlock_pending (s : State) : (resetBlock s).pending = State.reset.pending := rfl
@[simp] theorem resetBlock_draws (s : State) : (resetBlock s).draws = s.draws := rfl
@[simp] theorem resetBlock_schedule (s : State) : (resetBlock s).schedule = s.schedule := rfl
@[simp] theorem resetBlock_replies (s : State) : (resetBlock s).replies = s.replies := rfl

/-! The flags after each event (10_state.md R46). -/

@[simp] theorem statusAccepted_busy : statusAccepted.busy = true := rfl
@[simp] theorem statusAccepted_done : statusAccepted.done = false := rfl
@[simp] theorem statusAccepted_padfb : statusAccepted.padfb = false := rfl
@[simp] theorem statusAccepted_err : statusAccepted.err = 0 := rfl

@[simp] theorem statusCompleted_busy (b : Bool) : (statusCompleted b).busy = false := rfl
@[simp] theorem statusCompleted_done (b : Bool) : (statusCompleted b).done = true := rfl
@[simp] theorem statusCompleted_padfb (b : Bool) : (statusCompleted b).padfb = b := rfl
@[simp] theorem statusCompleted_err (b : Bool) : (statusCompleted b).err = 0 := rfl

@[simp] theorem statusFailed_busy (c : ErrCode) : (statusFailed c).busy = false := rfl
@[simp] theorem statusFailed_done (c : ErrCode) : (statusFailed c).done = true := rfl
@[simp] theorem statusFailed_padfb (c : ErrCode) : (statusFailed c).padfb = false := rfl
@[simp] theorem statusFailed_err (c : ErrCode) : (statusFailed c).err = c.code := rfl

@[simp] theorem statusDoneCleared_busy (st : Status) : (statusDoneCleared st).busy = st.busy := rfl
@[simp] theorem statusDoneCleared_done (st : Status) : (statusDoneCleared st).done = false := rfl
@[simp] theorem statusDoneCleared_padfb (st : Status) : (statusDoneCleared st).padfb = st.padfb := rfl
@[simp] theorem statusDoneCleared_err (st : Status) : (statusDoneCleared st).err = st.err := rfl

/-! The message length and the nonce depend on their own fields only. -/

theorem msgLen_eq (s : State) : s.msgLen = s.len.toNat := rfl

theorem irq_eq (s : State) : s.irq = (s.status.done && s.ctrl.irqEn) := rfl

/-- Two block-part-equal states differ in the turns and the replies only. -/
theorem blockPart_addReply (r : Reply) (s : State) : (addReply r s).blockPart = s.blockPart := rfl

theorem blockPart_setSchedule (ts : List Turn) (s : State) : (setSchedule ts s).blockPart = s.blockPart := rfl

end Sys2Proof.Machine
end

