-- ==== Sys2Proof/Laws/Operands.lean ====
section
/-! SUPPORT. What fetching an operand and ending a decrypt command can do, said once for each shared operation. -/

namespace Sys2Proof.Machine

/-- A command on its operand answers a next state in two ways. -/
theorem runOn_next {x : Operand} {s t : State} {k : List Byte → State} (h : runOn x s k = .next t) :
    (∃ bs, x = .bytes bs ∧ t = k bs) ∨ (∃ c, x = .err c ∧ t = raiseErr c s) := by
  unfold runOn at h
  split at h
  · cases h; exact .inl ⟨_, rfl, rfl⟩
  · cases h; exact .inr ⟨_, rfl, rfl⟩
  · cases h

/-- A command on its operand faults exactly when the operand is unspecified. -/
theorem runOn_fault {x : Operand} {s : State} {k : List Byte → State} {f : Fault} :
    runOn x s k = .fault f ↔ x = .unspecified ∧ f = .unspecifiedCommandRead := by
  unfold runOn
  cases x <;> simp [eq_comm]

theorem runOn_ne_refused (x : Operand) (s : State) (k : List Byte → State) (r : Refusal) :
    runOn x s k ≠ .refused r := by
  unfold runOn; cases x <;> simp

/-- The message as an operand: its bytes, or unspecified. -/
theorem readMessage_cases (m : Memory) (n : Nat) :
    (∃ bs, m.readBytes 0 n = some bs ∧ readMessage m n = .bytes bs) ∨
      (m.readBytes 0 n = none ∧ readMessage m n = .unspecified) := by
  unfold readMessage
  cases h : m.readBytes 0 n with
  | none => exact .inr ⟨rfl, rfl⟩
  | some bs => exact .inl ⟨bs, rfl, rfl⟩

/-- An encrypt command's operand, when its output fits and its message is specified. -/
theorem paddedInput_bytes {e : Nat} {s : State} {m : List Byte} (hm : s.holds m)
    (h : s.msgLen + padLen s.msgLen + e ≤ Config.msgCap) : paddedInput e s = .bytes (pad m) := by
  unfold paddedInput
  rw [if_neg (by omega), if_neg (by omega)]
  rcases readMessage_cases s.msg s.msgLen with ⟨bs, h1, h2⟩ | ⟨h1, -⟩
  · rw [h2]; have := h1.symm.trans hm; cases this; rfl
  · cases h1.symm.trans hm

/-- An encrypt command whose output does not fit raises CapacityExceeded, whatever the buffer holds. -/
theorem paddedInput_err {e : Nat} {s : State} (h : Config.msgCap < s.msgLen + padLen s.msgLen + e) :
    paddedInput e s = .err .capacityExceeded := by
  unfold paddedInput
  split
  · rfl
  · rfl

/-- Everything an encrypt command's operand can be. -/
theorem paddedInput_cases (e : Nat) (s : State) :
    (∃ m, s.holds m ∧ s.msgLen + padLen s.msgLen + e ≤ Config.msgCap ∧ paddedInput e s = .bytes (pad m)) ∨
      (Config.msgCap < s.msgLen + padLen s.msgLen + e ∧ paddedInput e s = .err .capacityExceeded) ∨
      (s.msg.readBytes 0 s.msgLen = none ∧ s.msgLen + padLen s.msgLen + e ≤ Config.msgCap ∧
        paddedInput e s = .unspecified) := by
  by_cases h : Config.msgCap < s.msgLen + padLen s.msgLen + e
  · exact .inr (.inl ⟨h, paddedInput_err h⟩)
  · cases hm : s.msg.readBytes 0 s.msgLen with
    | some m => exact .inl ⟨m, hm, by omega, paddedInput_bytes hm (by omega)⟩
    | none =>
      refine .inr (.inr ⟨rfl, by omega, ?_⟩)
      unfold paddedInput readMessage
      rw [if_neg (by omega), if_neg (by omega), hm]

/-- A decrypt command's operand, when the length checks pass and its message is specified. -/
theorem cipherInput_bytes {n : Nat} {s : State} {m : List Byte} (hm : s.holds m) (h1 : s.msgLen ≤ Config.msgCap)
    (h2 : n ≤ s.msgLen) (h3 : s.msgLen % 16 = 0) : cipherInput n s = .bytes m := by
  unfold cipherInput
  rw [if_neg (by omega), if_neg (by omega), if_neg (by unfold blockBytes; omega)]
  rcases readMessage_cases s.msg s.msgLen with ⟨bs, h1, h2⟩ | ⟨h1, -⟩
  · rw [h2]; have := h1.symm.trans hm; cases this; rfl
  · cases h1.symm.trans hm

/-- Everything a decrypt command's operand can be. -/
theorem cipherInput_cases (n : Nat) (s : State) :
    (∃ m, s.holds m ∧ s.msgLen ≤ Config.msgCap ∧ n ≤ s.msgLen ∧ s.msgLen % 16 = 0 ∧ cipherInput n s = .bytes m) ∨
      (Config.msgCap < s.msgLen ∧ cipherInput n s = .err .capacityExceeded) ∨
      (s.msgLen ≤ Config.msgCap ∧ s.msgLen < n ∧ cipherInput n s = .err .truncatedCiphertext) ∨
      (s.msgLen ≤ Config.msgCap ∧ n ≤ s.msgLen ∧ s.msgLen % 16 ≠ 0 ∧ cipherInput n s = .err .invalidLength) ∨
      (s.msg.readBytes 0 s.msgLen = none ∧ s.msgLen ≤ Config.msgCap ∧ n ≤ s.msgLen ∧ s.msgLen % 16 = 0 ∧
        cipherInput n s = .unspecified) := by
  by_cases h1 : Config.msgCap < s.msgLen
  · exact .inr (.inl ⟨h1, by unfold cipherInput; rw [if_pos h1]⟩)
  · by_cases h2 : s.msgLen < n
    · exact .inr (.inr (.inl ⟨by omega, h2, by unfold cipherInput; rw [if_neg (by omega), if_pos h2]⟩))
    · by_cases h3 : s.msgLen % 16 = 0
      · cases hm : s.msg.readBytes 0 s.msgLen with
        | some m =>
          exact .inl ⟨m, hm, by omega, by omega, h3, cipherInput_bytes hm (by omega) (by omega) h3⟩
        | none =>
          refine .inr (.inr (.inr (.inr ⟨rfl, by omega, by omega, h3, ?_⟩)))
          unfold cipherInput readMessage
          rw [if_neg (by omega), if_neg (by omega), if_neg (by unfold blockBytes; omega), hm]
      · refine .inr (.inr (.inr (.inl ⟨by omega, by omega, h3, ?_⟩)))
        unfold cipherInput
        rw [if_neg (by omega), if_neg (by omega), if_pos h3]

/-- A message that is not wholly specified has an unspecified cell. -/
theorem not_specified {s : State} (h : s.msg.readBytes 0 s.msgLen = none) : ¬ s.messageSpecified := by
  intro hs
  obtain ⟨i, hi, he⟩ := (Memory.readBytes_eq_none _ _ _).mp h
  rw [Nat.zero_add] at he
  exact hs i hi he

/-- The three ends of a decrypt command, by what `unpad` returns. -/
theorem finishDecrypt_ok {p t : List Byte} {s : State} (h : unpad p s.ctrl.strictUnpad = .ok t) :
    finishDecrypt p s = complete false (storeMessage p t.length s) := by
  unfold finishDecrypt; rw [h]

theorem finishDecrypt_fallback {p : List Byte} {s : State} (h : unpad p s.ctrl.strictUnpad = .fallback) :
    finishDecrypt p s = complete true (storeMessage p p.length s) := by
  unfold finishDecrypt; rw [h]

theorem finishDecrypt_invalid {p : List Byte} {s : State} (h : unpad p s.ctrl.strictUnpad = .invalid) :
    finishDecrypt p s = raiseErr .invalidPadding s := by
  unfold finishDecrypt; rw [h]

/-- Everything the end of a decrypt command can do. -/
theorem finishDecrypt_cases (p : List Byte) (s : State) :
    (∃ b n, n ≤ p.length ∧ finishDecrypt p s = complete b (storeMessage p n s)) ∨
      (s.ctrl.strictUnpad = true ∧ finishDecrypt p s = raiseErr .invalidPadding s) := by
  cases h : unpad p s.ctrl.strictUnpad with
  | ok t =>
    obtain ⟨n, -, -, rfl⟩ := unpad_ok h
    exact .inl ⟨false, _, by simp, finishDecrypt_ok h⟩
  | fallback => exact .inl ⟨true, _, le_refl _, finishDecrypt_fallback h⟩
  | invalid =>
    refine .inr ⟨?_, finishDecrypt_invalid h⟩
    cases hb : s.ctrl.strictUnpad with
    | true => rfl
    | false => rw [hb] at h; exact absurd h (unpad_lenient_ne_invalid p)

/-- The length that is kept, for an outcome of `unpad`. -/
def keptLength : Unpadded (List Byte) → Unpadded Nat
  | .ok t => .ok t.length
  | .fallback => .fallback
  | .invalid => .invalid

/-- On a wholly specified message, UNPAD's reading of the trailer agrees with `unpad` of the whole message. -/
theorem unpadInPlace_eq {m : Memory} {n : Nat} {bs : List Byte} (strict : Bool) (h : m.readBytes 0 n = some bs) :
    unpadInPlace m n strict = some (keptLength (unpad bs strict)) := by
  have hl := Memory.readBytes_length h
  unfold unpadInPlace
  by_cases h0 : n = 0
  · rw [if_pos h0, unpad_empty strict (by omega)]; cases strict <;> rfl
  · rw [if_neg h0]
    have hr : m.read (n - 1) = some (bs.getD (bs.length - 1) 0) := by
      have := Memory.readBytes_getElem h (i := n - 1) (by omega)
      rw [Nat.zero_add] at this
      rw [this, hl, List.getD_eq_getElem?_getD, List.getElem?_eq_getElem (by omega)]
      rfl
    rw [hr]
    dsimp only
    by_cases hb : (bs.getD (bs.length - 1) 0).toNat = 0 ∨ (bs.getD (bs.length - 1) 0).toNat > n
    · rw [if_pos hb, unpad_malformed strict (by omega) (by rw [hl] at hb ⊢; exact hb)]; cases strict <;> rfl
    · rw [if_neg hb, unpad_bounded strict (by omega) (by rw [hl] at hb ⊢; exact hb), hl]
      generalize hlast : bs.getD (n - 1) 0 = last
      rw [hl, hlast] at hb
      have ht : (bs.take (n - last.toNat)).length = n - last.toNat := by simp [hl]
      cases strict with
      | false => simp [keptLength, ht]
      | true =>
        have hd : m.readBytes (n - last.toNat) last.toNat = some (bs.drop (n - last.toNat)) := by
          refine (Memory.readBytes_eq_some _ _ _ _).mpr ⟨by simp [hl]; omega, fun i hi => ?_⟩
          have := Memory.readBytes_getElem h (i := n - last.toNat + i) (by omega)
          rw [Nat.zero_add] at this
          rw [this, List.getElem?_drop]
        rw [if_pos rfl, hd]
        dsimp only
        by_cases ha : (bs.drop (n - last.toNat)).all (· == last) = true
        · rw [if_pos ha, if_neg fun h => h.2 ha, keptLength, ht]
        · rw [if_neg ha, if_pos ⟨rfl, ha⟩, keptLength]

end Sys2Proof.Machine
end

