-- ==== Sys2Proof/Laws/Bus.lean ====
section
/-! SUPPORT. What a host access can do: the reply it gets, and the field it writes. -/

namespace Sys2Proof.Machine

/-- No register offset reaches the MSG window. -/
theorem registerAt_ne_msg (off j : Nat) : registerAt off ≠ some (.msg j) := by
  unfold registerAt
  repeat' split
  all_goals simp

/-- A MSG word that is reached lies whole in the window (R42, R64): `MSG_CAP` is a multiple of 4. -/
theorem decodeOffset_msg {off j : Nat} (h : decodeOffset off = some (.msg j)) :
    off = 0x1000 + 4 * j ∧ 4 * j + 4 ≤ Config.msgCap := by
  have hm := msgCap_mod
  unfold decodeOffset at h
  by_cases h1 : off % 4 = 0
  · rw [if_neg (by omega)] at h
    by_cases h2 : off < 0x1000
    · rw [if_pos h2] at h; exact absurd h (registerAt_ne_msg off j)
    · rw [if_neg h2] at h
      by_cases h3 : off - 0x1000 < Config.msgCap
      · rw [if_pos h3] at h; cases h; omega
      · rw [if_neg h3] at h; cases h
  · rw [if_pos h1] at h; cases h

/-- A read has no effect on the block: the host gets one reply, and nothing else changes (R65, R186). -/
theorem hostRead_next {off : Nat} {s t : State} (h : hostRead off s = .next t) : ∃ r, t = addReply r s := by
  unfold hostRead at h
  split at h
  · cases h; exact ⟨_, rfl⟩
  · cases h; exact ⟨_, rfl⟩
  · cases h

/-- A read that covers no unspecified MSG cell is answered. -/
theorem readTarget_isSome {t : Target} {s : State}
    (h : ∀ j, t = .msg j → ∀ k < 4, s.msg.read (4 * j + k) ≠ none) : ∃ w, readTarget t s = some w := by
  cases t with
  | msg j =>
    have h := h j rfl
    obtain ⟨b0, e0⟩ := Option.ne_none_iff_exists'.mp (h 0 (by omega))
    obtain ⟨b1, e1⟩ := Option.ne_none_iff_exists'.mp (h 1 (by omega))
    obtain ⟨b2, e2⟩ := Option.ne_none_iff_exists'.mp (h 2 (by omega))
    obtain ⟨b3, e3⟩ := Option.ne_none_iff_exists'.mp (h 3 (by omega))
    rw [Nat.add_zero] at e0
    exact ⟨wordOfLanes b0 b1 b2 b3, by simp only [readTarget, msgWord, e0, e1, e2, e3]⟩
  | _ => exact ⟨_, rfl⟩

/-- A write that takes effect reaches a mapped target while BUSY = 0 (R65, R67). -/
theorem busWrite_some {off : Nat} {w : Word} {s t : State} (h : busWrite off w s = some t) :
    s.status.busy = false ∧ ∃ g, decodeOffset off = some g ∧ writeTarget g w s = some t := by
  unfold busWrite at h
  split at h
  · cases h
  · rename_i g hg
    split at h
    · cases h
    · rename_i hb
      exact ⟨by simpa using hb, g, hg, h⟩

/-- A host write takes effect whole, or only the bus error is answered (R68, R186). -/
theorem hostWrite_cases (off : Nat) (w : Word) (s : State) :
    (∃ t, busWrite off w s = some t ∧ hostWrite off w s = addReply .written t) ∨
      (busWrite off w s = none ∧ hostWrite off w s = addReply .busError s) := by
  unfold hostWrite
  cases busWrite off w s with
  | none => exact .inr ⟨rfl, rfl⟩
  | some t => exact .inl ⟨t, rfl, rfl⟩

/-- What a write of each kind of target changes (R65), in one disjunction: at most one field, or the acceptance of
a command. -/
theorem writeTarget_some {g : Target} {w : Word} {s t : State} (h : writeTarget g w s = some t) :
    (g = .ctrl ∧ t = { s with ctrl := ctrlOfWord w }) ∨
    (g = .cmd ∧ t = acceptCommand w s) ∨
    (g = .status ∧ (w.getLsbD 1 = true ∧ t = clearDone s ∨ t = s)) ∨
    (g = .len ∧ t = { s with len := w }) ∨
    (∃ j, g = .key j ∧ t = { s with key := setBlockWord s.key j w }) ∨
    (∃ j, g = .iv j ∧ t = { s with iv := setBlockWord s.iv j w }) ∨
    (∃ j, g = .opa j ∧ t = { s with opa := setBlockWord s.opa j w }) ∨
    (∃ j, g = .opb j ∧ t = { s with opb := setBlockWord s.opb j w }) ∨
    (∃ j, g = .nonce j ∧ t = { s with nonce := setBlockWord s.nonce j w }) ∨
    (∃ j, g = .msg j ∧ t = { s with msg := s.msg.writeBytes (4 * j) (lanes w) }) := by
  cases g <;> simp only [writeTarget, Option.some.injEq, reduceCtorEq] at h
  case status => subst h; split <;> simp_all
  all_goals subst h; simp

/-- A write that takes effect touches neither the turns to come nor the replies. -/
theorem busWrite_keeps_host {off : Nat} {w : Word} {s t : State} (h : busWrite off w s = some t) :
    t.schedule = s.schedule ∧ t.replies = s.replies := by
  obtain ⟨-, g, -, hg⟩ := busWrite_some h
  rcases writeTarget_some hg with ⟨-, rfl⟩ | ⟨-, rfl⟩ | ⟨-, ⟨-, rfl⟩ | rfl⟩ | ⟨-, rfl⟩ | ⟨_, -, rfl⟩ | ⟨_, -, rfl⟩ |
    ⟨_, -, rfl⟩ | ⟨_, -, rfl⟩ | ⟨_, -, rfl⟩ | ⟨_, -, rfl⟩ <;> exact ⟨rfl, rfl⟩

@[simp] theorem lanes_length (w : Word) : (lanes w).length = 4 := rfl

end Sys2Proof.Machine
end

