-- ==== Sys2Proof/Laws/Counter.lean ====
section
/-! SUPPORT. The big-endian value of a block (R14) as a sum, its bound, what one byte adds to it, and what the carry
loop of `inc16` adds to it (R140). -/

namespace Sys2Proof.Machine

theorem be_eq_sum (x : Block) : be x = ∑ i : Fin 16, x[i].toNat * 256 ^ (15 - i.val) := by
  rw [be, Fin.sum_univ_def]

/-- A big-endian number of `n` bytes is below `256^n`. -/
theorem bigEndian_lt (n : Nat) (f : Fin n → Nat) (hf : ∀ i, f i < 256) :
    ∑ i : Fin n, f i * 256 ^ (n - 1 - i.val) < 256 ^ n := by
  induction n with
  | zero => simp
  | succ n ih =>
    rw [Fin.sum_univ_succ]
    have h1 := ih (fun i => f i.succ) fun i => hf _
    have h2 : ∑ i : Fin n, f i.succ * 256 ^ (n + 1 - 1 - i.succ.val) =
        ∑ i : Fin n, f i.succ * 256 ^ (n - 1 - i.val) := by
      refine Finset.sum_congr rfl fun i _ => ?_
      congr 2; simp; omega
    have h3 := Nat.mul_le_mul_right (256 ^ n) (Nat.le_of_lt_succ (show f 0 < 255 + 1 from hf 0))
    rw [h2]
    simp only [Fin.val_zero, Nat.add_sub_cancel, Nat.sub_zero]
    rw [pow_succ]
    omega

theorem be_lt (x : Block) : be x < 256 ^ 16 := by
  rw [be_eq_sum]
  exact bigEndian_lt 16 (fun i => x[i].toNat) fun i => x[i].isLt

/-- Byte `n` of a block counts `256^(15-n)` in its value. -/
theorem be_set (x : Block) (n : Nat) (h : n < 16) (b : Byte) :
    be (x.set n b) + x[n].toNat * 256 ^ (15 - n) = be x + b.toNat * 256 ^ (15 - n) := by
  have hsplit : ∀ y : Block, be y = y[n].toNat * 256 ^ (15 - n) +
      ∑ i ∈ Finset.univ.erase (⟨n, h⟩ : Fin 16), y[i].toNat * 256 ^ (15 - i.val) := fun y => by
    rw [be_eq_sum, ← Finset.add_sum_erase Finset.univ _ (Finset.mem_univ (⟨n, h⟩ : Fin 16))]
    rfl
  have hrest : ∑ i ∈ Finset.univ.erase (⟨n, h⟩ : Fin 16), (x.set n b)[i].toNat * 256 ^ (15 - i.val) =
      ∑ i ∈ Finset.univ.erase (⟨n, h⟩ : Fin 16), x[i].toNat * 256 ^ (15 - i.val) := by
    refine Finset.sum_congr rfl fun i hi => ?_
    have hne : n ≠ i.val := fun e => (Finset.ne_of_mem_erase hi) (Fin.ext e.symm)
    simp [Vector.getElem_set_ne, hne]
  rw [hsplit, hsplit x, hrest, Vector.getElem_set_self]
  omega

/-- The carry loop on the bytes below index `n` adds `256^(16-n)`, up to a multiple of `256^16` that the carry out
of byte 0 drops (R140). -/
theorem be_incFrom (n : Nat) (h : n ≤ blockBytes) (d : Block) :
    ∃ q, be (incFrom n h d) + 256 ^ 16 * q = be d + 256 ^ (16 - n) := by
  have hb : blockBytes = 16 := rfl
  induction n generalizing d with
  | zero => exact ⟨1, by simp [incFrom]⟩
  | succ n ih =>
    have hs := be_set d n (by omega) (d[n] + 1)
    have hlt := d[n].isLt
    have hadd : (d[n] + 1).toNat = (d[n].toNat + 1) % 256 := by simp [BitVec.toNat_add]
    have hexp : 16 - (n + 1) = 15 - n := by omega
    by_cases h0 : d[n] + 1 = 0
    · obtain ⟨q, hq⟩ := ih (by omega) (d.set n (d[n] + 1))
      have h255 : d[n].toNat = 255 := by rw [h0] at hadd; simp at hadd; omega
      have hi : incFrom (n + 1) h d = incFrom n (by omega) (d.set n (d[n] + 1)) := by
        rw [incFrom]; exact if_pos h0
      have hz : (d[n] + 1).toNat = 0 := by rw [h0]; rfl
      rw [hz, h255, Nat.zero_mul] at hs
      refine ⟨q, ?_⟩
      rw [hi, hq, hexp, show 16 - n = 15 - n + 1 by omega, pow_succ]
      omega
    · have h255 : d[n].toNat ≠ 255 := fun e => h0 (BitVec.eq_of_toNat_eq (by rw [hadd, e]; rfl))
      have hi : incFrom (n + 1) h d = d.set n (d[n] + 1) := by rw [incFrom]; exact if_neg h0
      rw [hadd, Nat.mod_eq_of_lt (by omega), Nat.add_mul] at hs
      exact ⟨0, by rw [hi, hexp]; omega⟩

end Sys2Proof.Machine
end

