-- ==== Sys2Proof/Laws/Engine.lean ====
section
/-! SUPPORT. Everything a command, the engine and a turn can do, said once. -/

namespace Sys2Proof.Machine

/-- Everything a command can do to the state it runs on: raise an error that is ever raised, or complete with new
MSG, LEN and RES and perhaps a draw used up (R182, R183). The buffer stays canonical and in its window. -/
structure Effect (s t : State) : Prop where
  /-- The outcome, error or completion. -/
  outcome : (∃ c, c ≠ .keyLength ∧ t = raiseErr c s) ∨
    ∃ b, t = complete b { s with msg := t.msg, len := t.len, res := t.res, draws := t.draws }
  /-- The buffer keeps its form. -/
  msg_wf : s.msg.wf → t.msg.wf
  /-- The buffer stays in its window. -/
  msg_inWindow : s.msg.inWindow → t.msg.inWindow

theorem Effect.of_raiseErr {c : ErrCode} (s : State) (h : c ≠ .keyLength) : Effect s (raiseErr c s) :=
  ⟨.inl ⟨c, h, rfl⟩, id, id⟩

/-- Storing at most `MSG_CAP` bytes from offset 0 is within what a command can do. -/
theorem Effect.of_store {b : Bool} {bs : List Byte} {n : Nat} (s : State) (h : bs.length ≤ Config.msgCap) :
    Effect s (complete b (storeMessage bs n s)) :=
  ⟨.inr ⟨b, rfl⟩, s.msg.writeBytes_wf 0 bs, fun hw => s.msg.writeBytes_inWindow 0 bs hw (by omega)⟩

theorem Effect.of_finishDecrypt {p : List Byte} (s : State) (h : p.length ≤ Config.msgCap) :
    Effect s (finishDecrypt p s) := by
  rcases finishDecrypt_cases p s with ⟨b, n, -, he⟩ | ⟨-, he⟩
  · rw [he]; exact Effect.of_store s h
  · rw [he]; exact Effect.of_raiseErr s (by simp)

/-- An encrypt command does what a command can do, if its output is as long as `paddedInput` has checked. -/
theorem Effect.of_encrypt {e : Nat} {s t : State} {k : List Byte → State} (h : runOn (paddedInput e s) s k = .next t)
    (hk : ∀ m, s.holds m → (pad m).length + e ≤ Config.msgCap → Effect s (k (pad m))) : Effect s t := by
  rcases paddedInput_cases e s with ⟨m, hm, hl, he⟩ | ⟨-, he⟩ | ⟨-, -, he⟩
  · rw [he] at h; cases h
    refine hk m hm ?_
    rw [pad_length, Memory.readBytes_length hm]; exact hl
  · rw [he] at h; cases h; exact Effect.of_raiseErr s (by simp)
  · rw [he] at h; cases h

/-- A decrypt command does what a command can do, if it does so on every message within `MSG_CAP`. -/
theorem Effect.of_decrypt {n : Nat} {s t : State} {k : List Byte → State} (h : runOn (cipherInput n s) s k = .next t)
    (hk : ∀ m, m.length ≤ Config.msgCap → n ≤ m.length → m.length % 16 = 0 → Effect s (k m)) : Effect s t := by
  rcases cipherInput_cases n s with ⟨m, hm, h1, h2, h3, he⟩ | ⟨-, he⟩ | ⟨-, -, he⟩ | ⟨-, -, -, he⟩ | ⟨-, -, -, -, he⟩
  · have hl := Memory.readBytes_length hm
    rw [he] at h; cases h
    exact hk m (by omega) (by omega) (by omega)
  · rw [he] at h; cases h; exact Effect.of_raiseErr s (by simp)
  · rw [he] at h; cases h; exact Effect.of_raiseErr s (by simp)
  · rw [he] at h; cases h; exact Effect.of_raiseErr s (by simp)
  · rw [he] at h; cases h

theorem Effect.of_execPad {s t : State} (h : execPad s = .next t) : Effect s t := by
  unfold execPad at h
  dsimp only at h
  split at h
  · cases h; exact Effect.of_raiseErr s (by simp)
  · split at h
    · cases h; exact Effect.of_raiseErr s (by simp)
    · cases h
      exact ⟨.inr ⟨false, rfl⟩, s.msg.writeBytes_wf _ _,
        fun hw => s.msg.writeBytes_inWindow _ _ hw (by rw [padBytes_length]; omega)⟩

theorem Effect.of_execUnpad {s t : State} (h : execUnpad s = .next t) : Effect s t := by
  unfold execUnpad at h
  dsimp only at h
  split at h
  · cases h; exact Effect.of_raiseErr s (by simp)
  · split at h
    · cases h
    · cases h; exact ⟨.inr ⟨false, rfl⟩, id, id⟩
    · cases h; exact ⟨.inr ⟨true, rfl⟩, id, id⟩
    · cases h; exact Effect.of_raiseErr s (by simp)

/-- The decrypted text of the body of a CTR ciphertext has its length. -/
theorem ctrBody_length (k v : Block) {c : List Byte} (h1 : blockBytes ≤ c.length) (h2 : c.length % 16 = 0) :
    (ungroup (ctrApply k v (group (c.take (c.length - blockBytes))))).length = c.length - 16 := by
  have hb : blockBytes = 16 := rfl
  rw [ungroup_length_of_group (s := c.take (c.length - blockBytes)) (by simp)]
  · simp
  · rw [List.length_take, Nat.min_eq_left (by omega)]; omega

/-- Everything a command can do (R182, R183): the inversion lemma of `exec`. -/
theorem exec_effect {i : Instr} {s t : State} (h : exec i s = .next t) : Effect s t := by
  cases i with
  | pad => exact Effect.of_execPad h
  | unpad => exact Effect.of_execUnpad h
  | xor => cases h; exact ⟨.inr ⟨false, rfl⟩, id, id⟩
  | inc => cases h; exact ⟨.inr ⟨false, rfl⟩, id, id⟩
  | ecbEnc =>
    refine Effect.of_encrypt h fun m _ hl => Effect.of_store s ?_
    rw [ungroup_length_of_group (by simp) (pad_length_mod m)]; omega
  | ecbDec =>
    refine Effect.of_decrypt h fun m h1 _ h3 => Effect.of_finishDecrypt s ?_
    rw [ungroup_length_of_group (by simp) h3]; exact h1
  | cbcEnc =>
    refine Effect.of_encrypt h fun m _ hl => Effect.of_store s ?_
    rw [ungroup_length_of_group (by simp) (pad_length_mod m)]; omega
  | cbcDec =>
    refine Effect.of_decrypt h fun m h1 _ h3 => Effect.of_finishDecrypt s ?_
    rw [ungroup_length_of_group (by simp) h3]; exact h1
  | ctrEnc =>
    refine Effect.of_encrypt h fun m _ hl => ?_
    have hw : (ungroup (ctrApply s.key (ctrNonce s) (group (pad m))) ++ (ctrNonce s).toList).length ≤ Config.msgCap := by
      rw [List.length_append, ungroup_length_of_group (by simp) (pad_length_mod m), Vector.length_toList]
      exact hl
    exact ⟨.inr ⟨false, rfl⟩, s.msg.writeBytes_wf 0 _, fun hi => s.msg.writeBytes_inWindow 0 _ hi (by omega)⟩
  | ctrDec =>
    refine Effect.of_decrypt h fun m h1 h2 h3 => Effect.of_finishDecrypt s ?_
    rw [ctrBody_length _ _ h2 h3]; omega

/-- Everything the engine can do: nothing while idle, or what a command can do; an illegal word raises
IllegalCommand (R92, R95). -/
theorem engineStep_next {s t : State} (h : engineStep s = .next t) : (s.pending = none ∧ t = s) ∨ Effect s t := by
  unfold engineStep at h
  split at h
  · cases h; exact .inl ⟨by assumption, rfl⟩
  · split at h
    · exact .inr (exec_effect h)
    · cases h; exact .inr (Effect.of_raiseErr s (by simp))

/-- Everything a turn can do. -/
theorem runTurn_next {t : Turn} {s s' : State} (h : runTurn t s = .next s') :
    (t = .engine ∧ engineStep s = .next s') ∨ (∃ off, t = .read off ∧ ∃ r, s' = addReply r s) ∨
      (∃ off w, t = .write off w ∧ s' = hostWrite off w s) ∨ (t = .reset ∧ s' = resetBlock s) := by
  cases t with
  | engine => exact .inl ⟨rfl, h⟩
  | read off => exact .inr (.inl ⟨off, rfl, hostRead_next h⟩)
  | write off w => cases h; exact .inr (.inr (.inl ⟨off, w, rfl, rfl⟩))
  | reset => cases h; exact .inr (.inr (.inr ⟨rfl, rfl⟩))

/-- Whose turn a step is. -/
theorem step_cases (s : State) :
    (s.schedule = [] ∧ step s = engineStep s) ∨
      ∃ t ts, s.schedule = t :: ts ∧ step s = runTurn t (setSchedule ts s) := by
  unfold step nextTurn
  cases s.schedule with
  | nil => exact .inl ⟨rfl, rfl⟩
  | cons t ts => exact .inr ⟨t, ts, rfl, rfl⟩

/-- Everything a step can do: the turn that comes next, on the state without it (R22, R75). -/
theorem step_next {s t : State} (h : step s = .next t) :
    ((s.schedule = [] ∨ ∃ ts, s.schedule = .engine :: ts) ∧ engineStep (setSchedule s.schedule.tail s) = .next t) ∨
      (∃ off ts r, s.schedule = .read off :: ts ∧ t = addReply r (setSchedule ts s)) ∨
      (∃ off w ts, s.schedule = .write off w :: ts ∧ t = hostWrite off w (setSchedule ts s)) ∨
      ∃ ts, s.schedule = .reset :: ts ∧ t = resetBlock (setSchedule ts s) := by
  rcases step_cases s with ⟨hs, he⟩ | ⟨u, ts, hs, he⟩ <;> rw [he] at h
  · exact .inl ⟨.inl hs, by rw [hs]; cases s; cases hs; exact h⟩
  · rcases runTurn_next h with ⟨rfl, h⟩ | ⟨off, rfl, r, rfl⟩ | ⟨off, w, rfl, rfl⟩ | ⟨rfl, rfl⟩
    · exact .inl ⟨.inr ⟨ts, hs⟩, by rw [hs]; exact h⟩
    · exact .inr (.inl ⟨off, ts, r, hs, rfl⟩)
    · exact .inr (.inr (.inl ⟨off, w, ts, hs, rfl⟩))
    · exact .inr (.inr (.inr ⟨ts, hs, rfl⟩))

end Sys2Proof.Machine
end

