-- ==== Sys2Proof/Laws/PerInstr.lean ====
section
/-! SUPPORT. What holds of every command as syntax, one lemma per constructor of Instr. -/

namespace Sys2Proof.Laws.Encoding

/-- The command's word is one that selects a command, and decodes to it (R90, R91, R96). -/
def Statement (i : Instr) : Prop :=
  i.wellFormed = true → wellFormedWord (encode i) = true ∧ decode (encode i) = .ok i

theorem pad : Statement .pad := fun _ => ⟨by decide, rfl⟩

theorem unpad : Statement .unpad := fun _ => ⟨by decide, rfl⟩

theorem xor : Statement .xor := fun _ => ⟨by decide, rfl⟩

theorem inc : Statement .inc := fun _ => ⟨by decide, rfl⟩

theorem ecbEnc : Statement .ecbEnc := fun _ => ⟨by decide, rfl⟩

theorem ecbDec : Statement .ecbDec := fun _ => ⟨by decide, rfl⟩

theorem cbcEnc : Statement .cbcEnc := fun _ => ⟨by decide, rfl⟩

theorem cbcDec : Statement .cbcDec := fun _ => ⟨by decide, rfl⟩

theorem ctrEnc : Statement .ctrEnc := fun _ => ⟨by decide, rfl⟩

theorem ctrDec : Statement .ctrDec := fun _ => ⟨by decide, rfl⟩

end Sys2Proof.Laws.Encoding
end

