-- ==== Sys2Proof/Tests/Slice0.lean ====
section
/-! SUPPORT. The model's own tests: ill-formed terms the checks refuse, words written out from 30_encoding.md, the
vectors of 95_test_vectors.md one step at a time, and witnesses that meet the hypotheses of each statement. -/

namespace Sys2Proof.Tests

open Sys2Proof.Machine

/-- The next state, if there is one. -/
def nextOf : Host.Outcome State Fault Refusal → Option State
  | .next t => some t
  | .fault _ => none
  | .refused _ => none

/-- The fault, if there is one. -/
def faultOf : Host.Outcome State Fault Refusal → Option Fault
  | .next _ => none
  | .fault f => some f
  | .refused _ => none

/-- Reset, with LEN and the first bytes of MSG set. -/
def msgState (len : Nat) (bytes : List Byte) : State :=
  { State.reset with len := BitVec.ofNat 32 len, msg := Memory.writeBytes [] 0 bytes }

/-- The same in strict mode. -/
def strictState (len : Nat) (bytes : List Byte) : State :=
  { msgState len bytes with ctrl := ⟨true, false, false⟩ }

/-- The bytes 1 to n, the source's concrete plaintext. -/
def countUp (n : Nat) : List Byte := (List.range n).map fun i => BitVec.ofNat 8 (i + 1)

/-- LEN, ERR and PADFB after a command. -/
def summary (o : Host.Outcome State Fault Refusal) : Option (Nat × Nat × Bool) :=
  (nextOf o).map fun t => (t.msgLen, t.status.err.toNat, t.status.padfb)

/-- A state that waits for the engine with command word `w`. -/
def waiting (w : Word) (s : State) : State := acceptCommand w s

/-! ### Well-formedness: a term for each check -/

theorem test_wellFormed_rsv_refused : rsvIsZero 0x00000011 = false ∧ wellFormedWord 0x00000011 = false := by decide

theorem test_wellFormed_op_refused :
    opIsAssigned 0x00000000 = false ∧ opIsAssigned 0x0000000B = false ∧ wellFormedWord 0x0000000F = false := by decide

theorem test_wellFormed_word_taken : wellFormedWord 0x0000000A = true ∧ wellFormedWord 0x00000001 = true := by decide

theorem test_legalCapacity_refused :
    legalCapacity 40 = false ∧ legalCapacity 16 = false ∧ legalCapacity (2 ^ 31 + 16) = false := by decide

theorem test_legalPlacement_refused : legalPlacement 32 0x1000 32 = false ∧ legalPlacement 32 0x2000 13 = false := by
  have h : Nat.clog 2 (0x1000 + 32) = 13 := by norm_num [Nat.clog]
  simp [legalPlacement, h]

theorem test_legalPlacement_taken : legalPlacement 32 0x2000 14 = true := by
  have h : Nat.clog 2 (0x1000 + 32) = 13 := by norm_num [Nat.clog]
  simp [legalPlacement, h]

/-! ### Decoding: words written out from R90 and R91, one family each -/

theorem test_decode_pad : decode 0b00000000000000000000000000000001#32 = .ok .pad := by rfl

theorem test_decode_unpad : decode 0b00000000000000000000000000000010#32 = .ok .unpad := by rfl

theorem test_decode_xor : decode 0b00000000000000000000000000000011#32 = .ok .xor := by rfl

theorem test_decode_inc : decode 0b00000000000000000000000000000100#32 = .ok .inc := by rfl

theorem test_decode_ecbEnc : decode 0b00000000000000000000000000000101#32 = .ok .ecbEnc := by rfl

theorem test_decode_ecbDec : decode 0b00000000000000000000000000000110#32 = .ok .ecbDec := by rfl

theorem test_decode_cbcEnc : decode 0b00000000000000000000000000000111#32 = .ok .cbcEnc := by rfl

theorem test_decode_cbcDec : decode 0b00000000000000000000000000001000#32 = .ok .cbcDec := by rfl

theorem test_decode_ctrEnc : decode 0b00000000000000000000000000001001#32 = .ok .ctrEnc := by rfl

theorem test_decode_ctrDec : decode 0b00000000000000000000000000001010#32 = .ok .ctrDec := by rfl

/-- The illegal words of 95_test_vectors.md 2.8. -/
theorem test_decode_illegal : decode 0x00000000 = .error .reservedOpcode ∧ decode 0x0000000B = .error .reservedOpcode ∧
    decode 0x0000000F = .error .reservedOpcode ∧ decode 0x00000011 = .error .reservedBits ∧
    decode 0x80000001 = .error .reservedBits := ⟨rfl, rfl, rfl, rfl, rfl⟩

theorem test_tableWord : decodeTableWord 32 9 = some .ctrEnc ∧ decodeTableWord 8 9 = some .ctrEnc ∧
    decodeTableWord 32 0x10000009 = none := by decide

/-- The very next step runs the placed command: PAD on the empty message (95_test_vectors.md 2.1). -/
theorem test_withFetchWord_runs : summary (step (State.reset.withFetchWord 32 1)) = some (16, 0, false) := by decide

/-! ### The commands: 95_test_vectors.md part 2 -/

/-- 2.1, LEN 14: two bytes 02. -/
theorem test_pad_14 : (nextOf (exec .pad (msgState 14 (countUp 14)))).bind (fun t => t.msg.readBytes 12 4) =
    some [0x0D, 0x0E, 0x02, 0x02] := by decide

/-- 2.1, LEN 15 and LEN 16 - 16 = 0: one byte, and a full block. -/
theorem test_pad_lengths : summary (exec .pad (msgState 15 [])) = some (16, 0, false) ∧
    summary (exec .pad (msgState 0 [])) = some (16, 0, false) := by decide

/-- 2.2: bytes not checked in lenient mode, checked in strict mode. -/
theorem test_unpad_modes : summary (exec .unpad (msgState 4 [0x41, 2, 3, 3])) = some (1, 0, false) ∧
    summary (exec .unpad (strictState 4 [0x41, 2, 3, 3])) = some (4, 3, false) ∧
    summary (exec .unpad (strictState 4 [0x41, 3, 3, 3])) = some (1, 0, false) := by decide

/-- 2.2: fallback on the empty message and on a last byte above LEN; `n = 17 > 16` is stripped in strict mode. -/
theorem test_unpad_bounds : summary (exec .unpad (msgState 0 [])) = some (0, 0, true) ∧
    summary (exec .unpad (msgState 1 [5])) = some (1, 0, true) ∧
    summary (exec .unpad (strictState 0 [])) = some (0, 3, false) ∧
    summary (exec .unpad (strictState 17 (List.replicate 17 0x11))) = some (0, 0, false) := by decide

/-- 2.3, rows 1 and 4. -/
theorem test_xor : xor16 #v[0, 1, 2, 3, 4, 5, 6, 7, 8, 9, 10, 11, 12, 13, 14, 15] (Vector.replicate 16 0xFF) =
    #v[0xFF, 0xFE, 0xFD, 0xFC, 0xFB, 0xFA, 0xF9, 0xF8, 0xF7, 0xF6, 0xF5, 0xF4, 0xF3, 0xF2, 0xF1, 0xF0] := by decide

theorem test_xor_command : (nextOf (exec .xor { State.reset with
    opa := Block.zero.set 15 0xFF, opb := Block.zero.set 14 1 })).map (fun t => t.res) =
    some ((Block.zero.set 14 1).set 15 0xFF) := by decide

/-- 2.4: carry through four bytes, and the wrap. -/
theorem test_inc_carry : inc16 #v[0, 0, 0, 0, 0, 0, 0, 0, 0, 0, 0, 0, 0xFF, 0xFF, 0xFF, 0xFF] =
    #v[0, 0, 0, 0, 0, 0, 0, 0, 0, 0, 0, 1, 0, 0, 0, 0] := by decide

theorem test_inc_command_wraps : (nextOf (exec .inc { State.reset with
    opa := Vector.replicate 16 0xFF, res := Block.zero.set 3 9 })).map (fun t => (t.res, t.status)) =
    some (Block.zero, ⟨false, true, false, 0⟩) := by decide

/-- R14: byte 0 is the most significant. -/
theorem test_be : be (Block.zero.set 14 1) = 256 ∧ be (Block.zero.set 0 1) = 256 ^ 15 ∧
    beInv 258 = (Block.zero.set 14 1).set 15 2 := by decide

/-- 2.5: ECB_ENC of the empty message is one encrypted block of padding. -/
theorem test_ecbEnc_empty : exec .ecbEnc State.reset = .next { State.reset with
    msg := Memory.writeBytes [] 0 (ungroup [Config.E Block.zero (Vector.replicate 16 0x10)])
    len := 16, status := ⟨false, true, false, 0⟩ } := by rfl

/-- 2.5: ECB_DEC of 15 bytes is InvalidLength. -/
theorem test_ecbDec_lengths : summary (exec .ecbDec (msgState 15 [])) = some (15, 1, false) ∧
    summary (exec .ecbDec (msgState 0 [])) = some (0, 0, true) ∧
    summary (exec .ecbDec (strictState 0 [])) = some (0, 3, false) := by decide

/-- 2.6: CBC chains from the IV; with a 16-byte message the second block is the padding. -/
theorem test_cbcEnc_chain (k iv x : Block) : cbcEncrypt k iv [x, Vector.replicate 16 0x10] =
    [Config.E k (xor16 x iv), Config.E k (xor16 (Vector.replicate 16 0x10) (Config.E k (xor16 x iv)))] := rfl

/-- 2.6: CBC_DEC of 20 bytes is InvalidLength. -/
theorem test_cbcDec_lengths : summary (exec .cbcDec (msgState 20 [])) = some (20, 1, false) := by decide

/-- 2.7, row 2: LEN 14 gives LEN 32, the nonce in the last 16 bytes; NONCE_SEL = 0 uses up a draw. -/
theorem test_ctrEnc_draw : (nextOf (exec .ctrEnc (msgState 14 (countUp 14)))).map (fun t => (t.msgLen, t.draws)) =
    some (32, 1) := by decide

/-- 2.7: CTR_DEC of 8, 24 and 16 bytes. -/
theorem test_ctrDec_lengths : summary (exec .ctrDec (msgState 8 [])) = some (8, 2, false) ∧
    summary (exec .ctrDec (msgState 24 [])) = some (24, 1, false) ∧
    summary (exec .ctrDec (msgState 16 (countUp 16))) = some (0, 0, true) ∧
    summary (exec .ctrDec (strictState 16 (countUp 16))) = some (16, 3, false) := by decide

/-! ### The port: 95_test_vectors.md 2.8 and part 3 -/

theorem test_port_reads : busRead 0x002 State.reset = .busError ∧ busRead 0x018 State.reset = .busError ∧
    busRead 0x020 State.reset = .data 0 ∧ busRead 0x004 State.reset = .data 0 ∧
    busRead 0x014 State.reset = .data 0x10 ∧ busRead 0x1000 State.reset = .unspecified := by decide

/-- P1: the word 0x04030201 puts 01 at the lowest offset. -/
theorem test_lane_order : lanes 0x04030201 = [1, 2, 3, 4] ∧ wordOfLanes 1 2 3 4 = 0x04030201 := by decide

/-- P2: the word 0xFF000000 at 0x04C is byte 15. -/
theorem test_opa_word : (busWrite 0x04C 0xFF000000 State.reset).map (fun t => t.opa) = some (Block.zero.set 15 0xFF) := by
  decide

/-- 2.8: CTRL reads back three bits. -/
theorem test_ctrl_readback : (busWrite 0x000 0xFFFFFFFF State.reset).map (busRead 0x000) = some (.data 7) := by decide

/-- 2.5: STATUS words. -/
theorem test_status_word : statusWord ⟨false, true, false, 1⟩ = 0x00000102 ∧
    statusWord ⟨false, true, true, 0⟩ = 0x00000006 ∧ statusWord ⟨true, false, false, 0⟩ = 0x00000001 := by decide

/-- P6: clearing DONE keeps ERR and drops irq. -/
theorem test_done_cleared : (busWrite 0x008 2 { State.reset with
    ctrl := ⟨false, true, false⟩, status := ⟨false, true, false, 2⟩ }).map (fun t => (statusWord t.status, t.irq)) =
    some (0x00000200, false) := by decide

/-! ### Witnesses: a state and operands that meet the hypotheses of each statement, each clause at a boundary -/

/-- LEN far above any MSG_CAP. -/
def overCap : State := { State.reset with len := 0xFFFFFFFF }

theorem witness_overCap : Config.msgCap < overCap.msgLen := by
  have := msgCap_le
  have h : overCap.msgLen = 4294967295 := rfl
  omega

/-- LEN equal to MSG_CAP, nothing specified. -/
def atCap : State := { State.reset with len := BitVec.ofNat 32 Config.msgCap }

theorem witness_atCap : atCap.msgLen = Config.msgCap ∧ atCap.msgLen ≤ Config.msgCap ∧
    Config.msgCap < atCap.msgLen + padLen atCap.msgLen := by
  have h : atCap.msgLen = Config.msgCap := toNat_ofNat_of_le_msgCap (le_refl _)
  have := padLen_pos atCap.msgLen
  exact ⟨h, by omega, by omega⟩

/-- LEN equal to MSG_CAP - 16: fits ECB and CBC, not CTR. -/
def nearCap : State := { State.reset with len := BitVec.ofNat 32 (Config.msgCap - 16) }

theorem witness_nearCap : nearCap.msgLen ≤ Config.msgCap ∧ nearCap.msgLen < Config.msgCap ∧
    Config.msgCap < nearCap.msgLen + (16 - nearCap.msgLen % 16) + 16 := by
  have h0 := le_msgCap
  have h1 := msgCap_mod
  have h : nearCap.msgLen = Config.msgCap - 16 := toNat_ofNat_of_le_msgCap (by omega)
  omega

/-- UngroupInvertsGroup, PadLengthBound, EcbBlocksAreIndependent: an aligned message whose padded form has two
equal blocks. -/
theorem witness_aligned : (List.replicate 16 (0x10 : Byte)).length % 16 = 0 ∧
    ((pad (List.replicate 16 0x10)).drop (16 * 0)).take 16 = ((pad (List.replicate 16 0x10)).drop (16 * 1)).take 16 ∧
    (pad (List.replicate 16 0x10)).length / 16 = 2 ∧ [Block.zero][0]? = some Block.zero := by decide

/-- UnpadOutcomes: a last byte 0, a last byte above the length, and one within it with equal and unequal trailers. -/
theorem witness_unpadOutcomes : unpad [0] true = .invalid ∧ unpad [5] false = .fallback ∧
    unpad [0x41, 3, 3, 3] true = .ok [0x41] ∧ unpad [0x41, 2, 3, 3] true = .invalid ∧ unpad [2, 2] true = .ok [] := by
  decide

/-- The encrypt and round-trip statements: a specified message of 14 bytes that fits every mode, and the longest
that is sure to fit ECB and CBC. -/
theorem witness_encrypt : (msgState 14 (countUp 14)).msgLen < Config.msgCap ∧
    (msgState 14 (countUp 14)).msg.readBytes 0 (msgState 14 (countUp 14)).msgLen = some (countUp 14) ∧
    14 + (16 - 14 % 16) + 16 ≤ Config.msgCap ∧ (msgState 31 (countUp 31)).msgLen < Config.msgCap ∧
    (msgState 31 (countUp 31)).msg.readBytes 0 31 = some (countUp 31) := by decide

/-- The decrypt statements: a specified aligned message, the shortest one, and lengths that fail each check. -/
theorem witness_decrypt : (msgState 16 (countUp 16)).msgLen ≤ Config.msgCap ∧
    (msgState 16 (countUp 16)).msgLen % 16 = 0 ∧ 16 ≤ (msgState 16 (countUp 16)).msgLen ∧
    (msgState 16 (countUp 16)).msg.readBytes 0 16 = some (countUp 16) ∧
    (msgState 17 []).msgLen % 16 ≠ 0 ∧ 16 ≤ (msgState 17 []).msgLen ∧ (msgState 15 []).msgLen < 16 ∧
    State.reset.msg.readBytes 0 State.reset.msgLen = some [] := by decide

/-- EcbDecCommand, ErrorCheckOrder: the text of one encrypted padding block decrypts to a trailer that unpads. -/
theorem witness_ecbDec_ok (k : Block) (strict : Bool) : unpad (ungroup (ecbDecrypt k (group (ungroup
    [Config.E k (Vector.replicate 16 0x10)])))) strict = .ok [] := by
  rw [group_ungroup]
  simp only [ecbDecrypt, List.map_cons, List.map_nil, Config.D, Config.E, Equiv.symm_apply_apply]
  cases strict <;> decide

/-- CbcDecCommand: the same for CBC with any IV. -/
theorem witness_cbcDec_ok (k iv : Block) (strict : Bool) : unpad (ungroup (cbcDecrypt k iv (group (ungroup
    [Config.E k (xor16 (Vector.replicate 16 0x10) iv)])))) strict = .ok [] := by
  have h : xor16 (xor16 (Vector.replicate 16 0x10) iv) iv = Vector.replicate 16 0x10 := by
    apply Vector.ext; intro i hi; simp
  rw [group_ungroup]
  simp only [cbcDecrypt, Config.D, Config.E, Equiv.symm_apply_apply, h]
  cases strict <;> decide

/-- CtrDecCommand: the same for CTR with any nonce. -/
theorem witness_ctrDec_ok (k n : Block) (strict : Bool) : unpad (ungroup (ctrApply k n (group (ungroup
    [xor16 (Vector.replicate 16 0x10) (Config.E k n)])))) strict = .ok [] := by
  have h : xor16 (xor16 (Vector.replicate 16 0x10) (Config.E k n)) (Config.E k n) = Vector.replicate 16 0x10 := by
    apply Vector.ext; intro i hi; simp
  rw [group_ungroup]
  simp only [ctrApply, h]
  cases strict <;> decide

/-- A buffer that holds the bytes written to it: with the three above, states that the Ok ends start from. -/
theorem witness_holds (bs : List Byte) (h : bs.length ≤ Config.msgCap) :
    { State.reset with len := BitVec.ofNat 32 bs.length, msg := Memory.writeBytes [] 0 bs }.holds bs := by
  have hl := toNat_ofNat_of_le_msgCap h
  show Memory.readBytes (Memory.writeBytes [] 0 bs) 0 (BitVec.ofNat 32 bs.length).toNat = some bs
  rw [hl]
  exact Memory.readBytes_writeBytes [] 0 bs

/-- ErrorCheckOrder: the empty message is malformed, so the last check fails in each decrypt command's own terms. -/
theorem witness_invalidPadding : unpad [] true = .invalid ∧ unpad (ungroup (ecbDecrypt Block.zero (group []))) true = .invalid ∧
    unpad (ungroup (cbcDecrypt Block.zero Block.zero (group []))) true = .invalid ∧
    unpad (ungroup (ctrApply Block.zero (blockOfBytes ((countUp 16).drop 0)) (group ((countUp 16).take 0)))) true =
      .invalid := by decide

/-- UnpadReadsOnlyTrailer: only the cells it names are specified, at both ends of the range of the last byte. -/
theorem witness_trailer :
    Memory.read [(3, 3)] 3 = some 3 ∧ Memory.readBytes [(3, 3)] 1 3 = none ∧
    Memory.readBytes [(1, 2), (2, 3), (3, 3)] 1 3 = some [2, 3, 3] ∧ Memory.read [(3, 4)] 3 = some 4 ∧
    Memory.read [(3, 0)] 3 = some 0 ∧ Memory.read [(3, 5)] 3 = some 5 ∧ Memory.read [] 3 = none ∧
    summary (exec .unpad { msgState 4 [] with msg := [(3, 3)] }) = some (1, 0, false) ∧
    faultOf (exec .unpad { strictState 4 [] with msg := [(3, 3)] }) = some .unspecifiedCommandRead ∧
    faultOf (exec .unpad (msgState 4 [])) = some .unspecifiedCommandRead := by decide

/-- The statements about a next state of `exec`: every command answers one after reset. -/
theorem witness_exec_next : ([.pad, .unpad, .xor, .inc, .ecbEnc, .ecbDec, .cbcEnc, .cbcDec, .ctrEnc, .ctrDec].all
    fun i => (nextOf (exec i State.reset)).isSome) = true := by decide

/-- ErrorDiscardsEverything, ErrorCodesByCause: codes 1, 2, 3 and 6 are reached. -/
theorem witness_errorCodes : summary (engineStep (waiting 6 (msgState 15 []))) = some (15, 1, false) ∧
    summary (engineStep (waiting 10 (msgState 8 []))) = some (8, 2, false) ∧
    summary (engineStep (waiting 2 (strictState 0 []))) = some (0, 3, false) ∧
    summary (engineStep (waiting 0x11 State.reset)) = some (0, 6, false) ∧
    summary (engineStep (waiting 0 State.reset)) = some (0, 6, false) := by decide

/-- ErrorCodesByCause: code 5 is reached at LEN = MSG_CAP. -/
theorem witness_capacity : exec .pad atCap = .next (raiseErr .capacityExceeded atCap) := by
  have h := witness_atCap
  show execPad atCap = _
  unfold execPad
  dsimp only
  rw [if_neg (by omega), if_pos h.2.2]

/-- StepServesHostAccess: a write the port takes, one it refuses, and a read with each of its three ends. -/
theorem witness_host_turn :
    ((nextOf (step (setSchedule [.write 0x00C 5, .engine] State.reset))).map
      fun t => (t.len, t.schedule, t.replies)) = some (5, [.engine], [.written]) ∧
    ((nextOf (step (setSchedule [.write 0x060 5] State.reset))).map fun t => (t.res, t.replies)) =
      some (Block.zero, [.busError]) ∧
    ((nextOf (step (setSchedule [.read 0x014] State.reset))).map fun t => t.replies) = some [.data 0x10] ∧
    ((nextOf (step (setSchedule [.read 0x018] State.reset))).map fun t => t.replies) = some [.busError] ∧
    faultOf (step (setSchedule [.read 0x1000] State.reset)) = some .unspecifiedHostRead := by decide

/-- StepRunsDecodedCommand: nothing is pending, and both kinds of engine turn come. -/
theorem witness_idle : State.reset.pending = none ∧ State.reset.schedule = [] ∧
    (setSchedule [.engine, .engine] State.reset).pending = none ∧
    (setSchedule [.engine, .engine] State.reset).schedule = .engine :: [.engine] ∧
    decode 0 = .error .reservedOpcode := by decide

/-- StepRunsDecodedCommand, IllegalWordCompletes: a decodable and an illegal word wait, with both kinds of schedule. -/
theorem witness_pending : (waiting 3 State.reset).pending = some (encode .xor) ∧ decode 3 = .ok .xor ∧
    (waiting 3 State.reset).schedule = [] ∧ (State.reset.withFetchWord 32 3).schedule = [.engine] ∧
    (0x0000000B#32).toNat % 16 = 0xB ∧ (0x00000010#32).toNat / 16 ≠ 0 ∧ (0x00000000#32).toNat % 16 = 0 := by
  refine ⟨rfl, rfl, rfl, rfl, by decide, by decide, by decide⟩

/-- EngineResultIgnoresWhen, EngineMovesAfterHost: a pending command and host accesses to come. -/
theorem witness_busy : (setSchedule [.read 0x008, .write 0x00C 5] (waiting 3 State.reset)).status.busy = true ∧
    Turn.isAccess (.read 0x008) = true ∧ Turn.isAccess (.write 0x00C 5) = true := by decide

/-- ResetAbandonsCommand: a command is pending when the reset comes. -/
theorem witness_reset_turn : (setSchedule [.reset] (waiting 3 State.reset)).schedule = [.reset] ∧
    (setSchedule [.reset] (waiting 3 State.reset)).pending = some 3 := by decide

/-- OffsetMapIsExact: the offsets where mapped and reserved ranges meet. -/
theorem witness_offsets : decodeOffset 0x014 = some .blksz ∧ decodeOffset 0x018 = none ∧ decodeOffset 0x01C = none ∧
    decodeOffset 0x020 = some (.key 0) ∧ decodeOffset 0x05C = some (.opb 3) ∧ decodeOffset 0x060 = some (.res 0) ∧
    decodeOffset 0x07C = some (.nonce 3) ∧ decodeOffset 0x080 = none ∧ decodeOffset 0xFFC = none ∧
    decodeOffset 0x1000 = some (.msg 0) ∧ decodeOffset 0x101C = some (.msg 7) ∧ decodeOffset 0x00E = none := by decide

/-- OffsetMapIsExact: the end of the window, whatever MSG_CAP is. -/
theorem witness_window_end : decodeOffset (0x1000 + Config.msgCap) = none := by
  have := msgCap_mod
  unfold decodeOffset
  rw [if_neg (by omega), if_neg (by omega), if_neg (by omega)]

/-- BusErrorsAreExact, CmdWriteAccepts: refused writes and reads, and ones that succeed, next to each other. -/
theorem witness_bus_errors : (busWrite 0x010 0 State.reset).isNone = true ∧ (busWrite 0x014 0 State.reset).isNone = true ∧
    (busWrite 0x060 0 State.reset).isNone = true ∧ (busWrite 0x06C 0 State.reset).isNone = true ∧
    (busWrite 0x05C 0 State.reset).isSome = true ∧ (busWrite 0x070 0 State.reset).isSome = true ∧
    (busWrite 0x004 1 (waiting 3 State.reset)).isNone = true ∧ busRead 0x00C (waiting 3 State.reset) = .busError ∧
    busRead 0x000 (waiting 3 State.reset) = .data 0 ∧ busRead 0x008 (waiting 3 State.reset) = .data 1 := by decide

/-- PortEffects, LaneOrder, KeyIsNeverRead, CtrlReservedBits: BUSY = 0, and a MSG word whose cells are specified. -/
theorem witness_port : State.reset.status.busy = false ∧ 4 * 1 < Config.msgCap ∧
    msgWord (msgState 8 (countUp 8)).msg 1 = some 0x08070605 ∧ 0x020 % 4 = 0 ∧ 0x02C < 0x030 := by decide

/-- WrittenWordReadsBack: writes that take effect at both ends of each range. -/
theorem witness_readback : ([0x00C, 0x030, 0x05C, 0x070, 0x07C, 0x1000, 0x101C].all fun off =>
    (busWrite off 0x12345678 State.reset).map (busRead off) == some (.data 0x12345678)) = true := by decide

/-- IrqIsLevelOfDone: an IRQ_EN = 1 state with DONE = 1, in which each of the three writes takes effect. -/
theorem witness_irq : ([(0x004, 1), (0x008, 2), (0x000, 0)].all fun x =>
    (busWrite x.1 x.2 { State.reset with ctrl := ⟨false, true, false⟩, status := ⟨false, true, false, 0⟩ }).map
      (fun t => t.irq) == some false) = true ∧
    { State.reset with ctrl := ⟨false, true, false⟩, status := ⟨false, true, false, 0⟩ }.irq = true := by decide

/-- OnlyTheseEventsChangeState: steps that change LEN, DONE, BUSY, PADFB and ERR, and an idle engine's step that
changes nothing. -/
theorem witness_status_events :
    ((nextOf (step (setSchedule [.write 0x00C 5] State.reset))).map fun t => t.msgLen) = some 5 ∧
    summary (step (waiting 1 (msgState 15 []))) = some (16, 0, false) ∧
    ((nextOf (step (setSchedule [.write 0x004 1] State.reset))).map fun t => t.status) = some ⟨true, false, false, 0⟩ ∧
    ((nextOf (step (setSchedule [.write 0x008 2] { State.reset with status := ⟨false, true, true, 3⟩ }))).map
      fun t => t.status) = some ⟨false, false, true, 3⟩ ∧
    ((nextOf (step { msgState 15 [] with status := ⟨false, true, true, 3⟩ })).map
      fun t => (t.msgLen, t.status)) = some (15, ⟨false, true, true, 3⟩) ∧
    summary (step (waiting 2 State.reset)) = some (0, 0, true) ∧
    summary (step (waiting 0 State.reset)) = some (0, 6, false) := by decide

/-- OnlyTheseEventsChangeState: a step that changes each register, RES and a MSG cell. -/
theorem witness_events :
    ((nextOf (step (setSchedule [.write 0x020 1] State.reset))).map fun t => t.key != State.reset.key) = some true ∧
    ((nextOf (step (setSchedule [.write 0x03C 1] State.reset))).map fun t => t.iv != State.reset.iv) = some true ∧
    ((nextOf (step (setSchedule [.write 0x040 1] State.reset))).map fun t => t.opa != State.reset.opa) = some true ∧
    ((nextOf (step (setSchedule [.write 0x050 1] State.reset))).map fun t => t.opb != State.reset.opb) = some true ∧
    ((nextOf (step (setSchedule [.write 0x07C 1] State.reset))).map fun t => t.nonce != State.reset.nonce) = some true ∧
    ((nextOf (step (setSchedule [.write 0x000 1] State.reset))).map fun t => t.ctrl != State.reset.ctrl) = some true ∧
    ((nextOf (step (waiting 4 State.reset))).map fun t => t.res != State.reset.res) = some true ∧
    ((nextOf (step (setSchedule [.write 0x1000 1] State.reset))).map fun t => t.msg.read 0) = some (some 1) := by decide

/-- DrawOnlyForFreshNonce: a step that uses up a draw, and one that uses NONCE. -/
theorem witness_draw : ((nextOf (step (waiting 9 State.reset))).map fun t => t.draws) = some 1 ∧
    ((nextOf (step (waiting 9 { State.reset with ctrl := ⟨false, false, true⟩ }))).map fun t => t.draws) = some 0 := by
  decide

/-- StepKeepsInvariant: a state with a command pending meets the invariant, and its step answers. -/
theorem witness_invariant : (waiting 3 State.reset).Inv ∧ (nextOf (step (waiting 3 State.reset))).isSome = true :=
  ⟨⟨List.Pairwise.nil, by simp [waiting, State.reset], rfl, rfl, by simp [waiting], by simp [waiting]⟩, by decide⟩

/-- TurnsStopOnlyOnUnspecified: turns that read no unspecified cell, and the two faults. -/
theorem witness_turns : turnSpecified .engine (waiting 5 State.reset) ∧ turnSpecified (.read 0x008) State.reset ∧
    faultOf (runTurn .engine (waiting 5 (msgState 1 []))) = some .unspecifiedCommandRead ∧
    faultOf (runTurn (.read 0x1000) State.reset) = some .unspecifiedHostRead :=
  ⟨fun a ha => absurd ha (by simp [waiting, State.msgLen, State.reset]), fun j h => (by simp [decodeOffset, registerAt] at h),
    by decide, by decide⟩

/-- UnspecifiedCellsStop: one unspecified cell, the last of the message and the last of the word. -/
theorem witness_unspecified : (msgState 15 (countUp 14)).msg.readBytes 0 15 = none ∧
    15 + (16 - 15 % 16) + 16 ≤ Config.msgCap ∧ (msgState 16 (countUp 15)).msg.readBytes 0 16 = none ∧
    (msgState 16 (countUp 15)).msgLen ≤ Config.msgCap ∧ (msgState 0 (countUp 3)).msg.read (4 * 0 + 3) = none := by decide

/-- CtrKeystreamByIndex, CbcWrongIvTouchesFirstBlock: a list with a block at the index. -/
theorem witness_blocks : [Block.zero, Block.zero][1]? = some Block.zero ∧ be Block.zero < 2 ^ 128 := by decide

end Sys2Proof.Tests
end

/-! PROOFS. What R8, R10 and R11 of 00_scope.md say of the cipher pair and of the OPEN parameters. -/

namespace Sys2Proof

@[simp] theorem Config.D_E (k x : Block) : Config.D k (Config.E k x) = x := (Config.cipher k).symm_apply_apply x

@[simp] theorem Config.E_D (k x : Block) : Config.E k (Config.D k x) = x := (Config.cipher k).apply_symm_apply x

theorem legalCapacity_msgCap : legalCapacity Config.msgCap = true := by
  simp only [legalCapacity, Bool.and_eq_true, beq_iff_eq, decide_eq_true_eq]
  exact ⟨⟨msgCap_mod, le_msgCap⟩, msgCap_le⟩

/-- The whole window lies below `2^ADDR_W` (R11). -/
theorem window_le_two_pow_addrW : Config.base + 0x1000 + Config.msgCap ≤ 2 ^ Config.addrW := by
  set top := Config.base + 0x1000 + Config.msgCap
  calc top ≤ 2 ^ Nat.clog 2 top := Nat.le_pow_clog (by decide) top
    _ ≤ 2 ^ Config.addrW := Nat.pow_le_pow_right (by decide) (Nat.le_add_right _ _)

theorem legalPlacement_base : legalPlacement Config.msgCap Config.base Config.addrW = true := by
  simp only [legalPlacement, Bool.and_eq_true, beq_iff_eq, decide_eq_true_eq]
  exact ⟨Nat.mul_mod_left _ _, window_le_two_pow_addrW⟩

/-- Settles O1: the cipher is a permutation of blocks for each key, and `D` is its inverse. -/
theorem cipherPairInverts : Obligations.CipherPairInverts :=
  fun k x => ⟨Config.D_E k x, Config.E_D k x⟩

/-- Settles O2: every value of the selectors gives a legal capacity and a legal placement. -/
theorem parametersAreLegal : Obligations.ParametersAreLegal :=
  ⟨legalCapacity_msgCap, legalPlacement_base⟩

end Sys2Proof

/-! PROOFS. The big-endian reading of a block (00_scope.md R14) is Mathlib's bijection between the functions
`Fin 16 → Fin 256` and the numbers below `256^16`, with the bytes taken from the last to the first. -/

namespace Sys2Proof.Machine

/-- The bytes of a block as base-256 digits, the least significant, byte 15, first. -/
def blockDigits (x : Block) : Fin 16 → Fin 256 := fun i => x[i.rev].toFin

theorem blockDigits_injective : Function.Injective blockDigits := by
  intro x y h
  refine Vector.ext fun i hi => BitVec.eq_of_toFin_eq ?_
  simpa [blockDigits] using congrFun h (Fin.rev ⟨i, hi⟩)

/-- `be` reads the digits of a block in base 256. -/
theorem be_eq_finFunctionFinEquiv (x : Block) : be x = finFunctionFinEquiv (blockDigits x) := by
  rw [be_eq_sum, finFunctionFinEquiv_apply, ← Equiv.sum_comp Fin.revPerm]
  refine Finset.sum_congr rfl fun i _ => ?_
  have hexp : 15 - i.rev.val = i.val := by rw [Fin.val_rev]; omega
  rw [Fin.revPerm_apply, hexp]
  rfl

/-- The digits of `be^-1(n)` are the base-256 digits of `n`. -/
theorem blockDigits_beInv (n : Fin (256 ^ 16)) : blockDigits (beInv n) = finFunctionFinEquiv.symm n := by
  funext i
  have hexp : 15 - (15 - i.val) = i.val := by omega
  apply Fin.ext
  simp [blockDigits, beInv, finFunctionFinEquiv, hexp]

/-- `be(be^-1(n)) = n` (R14). -/
theorem be_beInv {n : Nat} (h : n < 2 ^ 128) : be (beInv n) = n := by
  have hd := blockDigits_beInv ⟨n, h⟩
  rw [be_eq_finFunctionFinEquiv, hd, Equiv.apply_symm_apply]

/-- `be^-1(be(x)) = x`: every block is the block of its value (R14). -/
@[simp] theorem beInv_be (x : Block) : beInv (be x) = x := by
  apply blockDigits_injective
  rw [be_eq_finFunctionFinEquiv, blockDigits_beInv, Equiv.symm_apply_apply]

/-- Settles O3: `be` and `be^-1` are the two directions of the digit bijection. -/
theorem bigEndianReadingIsOneToOne : Obligations.BigEndianReadingIsOneToOne :=
  ⟨fun _ h => be_beInv h, fun x => ⟨be_eq_sum x, be_lt x, beInv_be x⟩⟩

end Sys2Proof.Machine

/-! PROOFS. Which steps use up an answer of the randomness source (00_scope.md R9, 46_ctr_mode_engine.md R173). -/

namespace Sys2Proof.Machine

/-- A 4-bit opcode that decodes to a command is that command's word (R91). -/
theorem decodeOp_eq_ok {op : BitVec 4} {i : Instr} (h : decodeOp op = .ok i) : op.setWidth 32 = encode i := by
  unfold decodeOp at h
  split at h <;> cases h
  all_goals
    next hop => exact BitVec.eq_of_toNat_eq (by rw [BitVec.toNat_setWidth, hop]; rfl)

/-- A word that decodes to a command is that command's word (R90 to R92). -/
theorem decode_eq_ok {w : Word} {i : Instr} (h : decode w = .ok i) : w = encode i := by
  unfold decode at h
  split at h
  · cases h
  · rename_i hr
    have hw : w = (opField w).setWidth 32 := by
      have hrsv : w.toNat / 2 ^ 4 % 2 ^ 28 = 0 := by
        rw [← Nat.shiftRight_eq_div_pow]
        exact congrArg BitVec.toNat (not_not.mp hr)
      apply BitVec.eq_of_toNat_eq
      simp only [opField, BitVec.toNat_setWidth, BitVec.extractLsb'_toNat, Nat.shiftRight_zero]
      omega
    rw [hw]
    exact decodeOp_eq_ok h

theorem finishDecrypt_draws (p : List Byte) (s : State) : (finishDecrypt p s).draws = s.draws := by
  rcases finishDecrypt_cases p s with ⟨b, n, -, he⟩ | ⟨-, he⟩ <;> rw [he] <;> rfl

/-- A command that runs on an operand uses up no draw if its effect uses up none. -/
theorem runOn_draws {x : Operand} {s t : State} {k : List Byte → State} (h : runOn x s k = .next t)
    (hk : ∀ bs, (k bs).draws = s.draws) : t.draws = s.draws := by
  rcases runOn_next h with ⟨bs, -, rfl⟩ | ⟨c, -, rfl⟩
  · exact hk bs
  · rfl

theorem execPad_draws {s t : State} (h : execPad s = .next t) : t.draws = s.draws := by
  unfold execPad at h
  dsimp only at h
  split at h
  · cases h; rfl
  · split at h <;> cases h <;> rfl

theorem execUnpad_draws {s t : State} (h : execUnpad s = .next t) : t.draws = s.draws := by
  unfold execUnpad at h
  dsimp only at h
  split at h
  · cases h; rfl
  · split at h <;> cases h <;> rfl

/-- No command but CTR_ENC asks the randomness source (R173). -/
theorem exec_draws {i : Instr} {s t : State} (h : exec i s = .next t) (hi : i ≠ .ctrEnc) : t.draws = s.draws := by
  cases i with
  | pad => exact execPad_draws h
  | unpad => exact execUnpad_draws h
  | xor => cases h; rfl
  | inc => cases h; rfl
  | ecbEnc => exact runOn_draws h fun _ => rfl
  | ecbDec => exact runOn_draws h fun _ => finishDecrypt_draws _ s
  | cbcEnc => exact runOn_draws h fun _ => rfl
  | cbcDec => exact runOn_draws h fun _ => finishDecrypt_draws _ s
  | ctrEnc => exact absurd rfl hi
  | ctrDec => exact runOn_draws h fun _ => finishDecrypt_draws _ s

/-- CTR_ENC uses up a draw only with NONCE_SEL = 0 and without error (R173, R183). -/
theorem execCtrEnc_draws {s t : State} (h : execCtrEnc s = .next t) :
    t.draws = s.draws ∨ t.draws = s.draws + 1 ∧ s.ctrl.nonceSel = false ∧ t.status.err = 0 := by
  rcases runOn_next h with ⟨bs, -, rfl⟩ | ⟨c, -, rfl⟩
  · cases hn : s.ctrl.nonceSel with
    | true => left; simp [hn]
    | false => right; simp [hn]
  · exact .inl rfl

/-- The engine uses up a draw only when it runs an error-free CTR_ENC with NONCE_SEL = 0. -/
theorem engineStep_draws {s t : State} (h : engineStep s = .next t) :
    t.draws = s.draws ∨
      t.draws = s.draws + 1 ∧ s.pending = some (encode .ctrEnc) ∧ s.ctrl.nonceSel = false ∧ t.status.err = 0 := by
  unfold engineStep at h
  split at h
  · cases h; exact .inl rfl
  · rename_i w hw
    split at h
    · rename_i i hd
      by_cases hi : i = .ctrEnc
      · subst hi
        exact (execCtrEnc_draws h).imp_right fun ⟨hdraws, hctrl⟩ => ⟨hdraws, by rw [hw, decode_eq_ok hd], hctrl⟩
      · exact .inl (exec_draws h hi)
    · cases h; exact .inl rfl

theorem busWrite_draws {off : Nat} {w : Word} {s t : State} (h : busWrite off w s = some t) : t.draws = s.draws := by
  obtain ⟨-, g, -, hg⟩ := busWrite_some h
  rcases writeTarget_some hg with ⟨-, rfl⟩ | ⟨-, rfl⟩ | ⟨-, ⟨-, rfl⟩ | rfl⟩ | ⟨-, rfl⟩ | ⟨_, -, rfl⟩ | ⟨_, -, rfl⟩ |
    ⟨_, -, rfl⟩ | ⟨_, -, rfl⟩ | ⟨_, -, rfl⟩ | ⟨_, -, rfl⟩ <;> rfl

theorem hostWrite_draws (off : Nat) (w : Word) (s : State) : (hostWrite off w s).draws = s.draws := by
  rcases hostWrite_cases off w s with ⟨t, ht, he⟩ | ⟨-, he⟩ <;> rw [he, addReply_draws]
  exact busWrite_draws ht

/-- Settles O54: only the engine's turn reaches the randomness source, and there only CTR_ENC does. -/
theorem drawOnlyForFreshNonce : Obligations.DrawOnlyForFreshNonce := by
  intro s t h
  rcases step_next h with ⟨-, he⟩ | ⟨off, ts, r, -, rfl⟩ | ⟨off, w, ts, -, rfl⟩ | ⟨ts, -, rfl⟩
  · exact engineStep_draws (s := setSchedule s.schedule.tail s) he
  · exact .inl rfl
  · exact .inl (hostWrite_draws off w (setSchedule ts s))
  · exact .inl rfl

end Sys2Proof.Machine

/-! PROOFS. The offset map of 10_state.md R24, exactly, and what an access to a mapped offset does (20_memory.md R65, R67). -/

namespace Sys2Proof.Machine

theorem Target.offset_mod_four (g : Target) : g.offset % 4 = 0 := by
  cases g <;> simp only [Target.offset] <;> omega

/-- The rows of R24 below the MSG window. -/
theorem registerAt_eq_some {off : Nat} {g : Target} (hal : off % 4 = 0) (h : registerAt off = some g) :
    off = g.offset ∧ g.isMapped = true := by
  unfold registerAt at h
  repeat' split at h
  all_goals cases h
  all_goals refine ⟨?_, rfl⟩
  all_goals simp only [Target.offset, wordIndex]; omega

/-- Word `j` of the MSG window is reached at its offset (R24). -/
theorem decodeOffset_msgWord {j : Nat} (h : 4 * j < Config.msgCap) : decodeOffset (0x1000 + 4 * j) = some (.msg j) := by
  have hidx : (0x1000 + 4 * j - 0x1000) / 4 = j := by omega
  unfold decodeOffset
  rw [if_neg (by omega), if_neg (by omega), if_pos (by omega), hidx]

/-- Each mapped target is reached at its own offset (R24). -/
theorem decodeOffset_offset {g : Target} (h : g.isMapped = true) : decodeOffset g.offset = some g := by
  cases g with
  | ctrl => rfl
  | cmd => rfl
  | status => rfl
  | len => rfl
  | cap => rfl
  | blksz => rfl
  | key j => revert j; decide
  | iv j => revert j; decide
  | opa j => revert j; decide
  | opb j => revert j; decide
  | res j => revert j; decide
  | nonce j => revert j; decide
  | msg j => exact decodeOffset_msgWord (by simpa [Target.isMapped] using h)

/-- The offset map is exact: a target is reached at its own offset, if it is there, and at no other (R24, R61, R64). -/
theorem decodeOffset_eq_some_iff {off : Nat} {g : Target} :
    decodeOffset off = some g ↔ off = g.offset ∧ g.isMapped = true := by
  constructor
  · intro h
    unfold decodeOffset at h
    split at h
    · cases h
    · split at h
      · exact registerAt_eq_some (by omega) h
      · split at h
        · cases h
          simp only [Target.offset, Target.isMapped, decide_eq_true_eq]
          omega
        · cases h
  · rintro ⟨rfl, hm⟩
    exact decodeOffset_offset hm

@[simp] theorem decodeOffset_ctrl : decodeOffset 0x000 = some .ctrl := rfl
@[simp] theorem decodeOffset_cmd : decodeOffset 0x004 = some .cmd := rfl
@[simp] theorem decodeOffset_status : decodeOffset 0x008 = some .status := rfl

/-- A read of a mapped offset that may be read now returns what the table of R65 says. -/
theorem busRead_data {off : Nat} {g : Target} {s : State} {v : Word} (hg : decodeOffset off = some g)
    (hb : s.status.busy = false ∨ g.readableWhileBusy = true) (hv : readTarget g s = some v) :
    busRead off s = .data v := by
  have hfree : ¬ (s.status.busy = true ∧ g.readableWhileBusy = false) := by
    rintro ⟨h1, h2⟩
    rcases hb with hb | hb
    · rw [hb] at h1; cases h1
    · rw [hb] at h2; cases h2
  simp only [busRead, hg, if_neg hfree, hv]

/-- While BUSY = 0 a write of a mapped offset is what the table of R65 says. -/
theorem busWrite_idle {off : Nat} {g : Target} {s : State} (w : Word) (hg : decodeOffset off = some g)
    (hb : s.status.busy = false) : busWrite off w s = writeTarget g w s := by
  simp [busWrite, hg, hb]

/-- A write that takes effect is the write of the target its offset reaches. -/
theorem writeTarget_of_busWrite {off : Nat} {g : Target} {w : Word} {s t : State} (hg : decodeOffset off = some g)
    (h : busWrite off w s = some t) : writeTarget g w s = some t := by
  obtain ⟨-, g', hg', hw⟩ := busWrite_some h
  rw [hg] at hg'
  cases hg'
  exact hw

/-- A write is refused by the read-only targets and by no other, whatever the state and the word (R65). -/
theorem writeTarget_isSome (g : Target) (w : Word) (s : State) : (writeTarget g w s).isSome = !g.isReadOnly := by
  cases g <;> rfl

/-- Which writes are accepted (R61, R64, R65, R67). -/
theorem busWrite_isSome (off : Nat) (w : Word) (s : State) :
    (busWrite off w s).isSome = (!s.status.busy && (decodeOffset off).any fun g => !g.isReadOnly) := by
  unfold busWrite
  cases decodeOffset off with
  | none => simp
  | some g => cases s.status.busy <;> simp [writeTarget_isSome]

/-- No target's read value depends on KEY (R36). -/
theorem readTarget_withKey (g : Target) (k : Block) (s : State) : readTarget g { s with key := k } = readTarget g s := by
  cases g <;> rfl

/-- Settles O25: no row of the read table names KEY, and the checks of an access look at the offset and BUSY only. -/
theorem keyIsNeverRead : Obligations.KeyIsNeverRead := by
  intro s k off
  refine ⟨?_, fun w => ?_, fun hb hlo hhi hal => ?_⟩
  · simp only [busRead, readTarget_withKey]
  · simp only [busWrite_isSome]
  · have hg : decodeOffset off = some (.key (wordIndex off)) := by
      refine decodeOffset_eq_some_iff.mpr ⟨?_, rfl⟩
      simp only [Target.offset, wordIndex]
      omega
    exact busRead_data hg (.inl hb) rfl

end Sys2Proof.Machine

/-! PROOFS. The words CTRL and STATUS read as, bit by bit (10_state.md R25, R26, R32). -/

namespace Sys2Proof.Machine

theorem getLsbD_bitWord (b : Bool) (n : Nat) : (bitWord b).getLsbD n = (decide (n = 0) && b) := by
  cases n <;> cases b <;> simp [bitWord]

/-- Bit `n` of a word that holds one bit at place `k` (R13). -/
theorem getLsbD_bitWord_shiftLeft (b : Bool) {k : Nat} (hk : k < 32) (n : Nat) :
    (bitWord b <<< k).getLsbD n = (decide (n = k) && b) := by
  rw [BitVec.getLsbD_shiftLeft, getLsbD_bitWord]
  grind


theorem ctrlWord_ctrlOfWord (w : Word) : ctrlWord (ctrlOfWord w) = w &&& 0x00000007#32 := by
  refine BitVec.eq_of_getLsbD_eq fun n _ => ?_
  rw [BitVec.getLsbD_and]
  simp only [ctrlWord, ctrlOfWord, BitVec.getLsbD_or, getLsbD_bitWord_shiftLeft, getLsbD_bitWord, Nat.reduceLT]
  match n with
  | 0 => simp
  | 1 => simp
  | 2 => simp
  | n + 3 =>
    rw [BitVec.getLsbD_ofNat]
    simp [Nat.testBit_succ]

/-- Bit `n` of the word STATUS reads as (R32). -/
theorem getLsbD_statusWord (st : Status) (n : Nat) :
    (statusWord st).getLsbD n = (decide (8 ≤ n) && decide (n < 12) && st.err.getLsbD (n - 8) ||
      decide (n = 2) && st.padfb || decide (n = 1) && st.done || decide (n = 0) && st.busy) := by
  have herr : (st.err.setWidth 32 <<< 8).getLsbD n =
      (decide (8 ≤ n) && decide (n < 12) && st.err.getLsbD (n - 8)) := by
    by_cases h : n < 12
    · simp [h]
      grind
    · rw [BitVec.getLsbD_shiftLeft, BitVec.getLsbD_setWidth, BitVec.getLsbD_of_ge st.err (n - 8) (by omega)]
      simp
  simp only [statusWord, BitVec.getLsbD_or, herr, getLsbD_bitWord_shiftLeft, getLsbD_bitWord, Nat.reduceLT]

theorem statusWord_err (st : Status) : (statusWord st).extractLsb' 8 4 = st.err := by
  refine BitVec.eq_of_getLsbD_eq fun n hn => ?_
  rw [BitVec.getLsbD_extractLsb', getLsbD_statusWord]
  simp [hn]
  grind

/-- Settles O21: the stored bits read back as the low three bits of the word. -/
theorem ctrlReservedBits : Obligations.CtrlReservedBits := by
  intro s w hb
  refine ⟨{ s with ctrl := ctrlOfWord w }, busWrite_idle w decodeOffset_ctrl hb, ?_⟩
  rw [← ctrlWord_ctrlOfWord]
  exact busRead_data decodeOffset_ctrl (.inl hb) rfl

/-- Settles O22: the read by `getLsbD_statusWord`, the write by the two values of its bit 1. -/
theorem statusReservedBits : Obligations.StatusReservedBits := by
  intro s w
  refine ⟨⟨statusWord s.status, busRead_data decodeOffset_status (.inr rfl) rfl, fun n hn => ?_, ?_, ?_, ?_,
    statusWord_err s.status⟩, fun hb => ⟨_, ?_, rfl⟩⟩
  · rw [getLsbD_statusWord]
    grind
  · rw [getLsbD_statusWord]; simp
  · rw [getLsbD_statusWord]; simp
  · rw [getLsbD_statusWord]; simp
  · rw [busWrite_idle w decodeOffset_status hb]
    cases hw : w.getLsbD 1 with
    | false => simp only [writeTarget, hw, Bool.not_false, Bool.and_true]; rfl
    | true => simp only [writeTarget, hw, Bool.not_true, Bool.and_false]; rfl

end Sys2Proof.Machine

/-! PROOFS. What reset leaves (10_state.md R48), what every command leaves unchanged (30_encoding.md R93) and the
invariant of the block (10_state.md R42, R43, R46). -/

namespace Sys2Proof.Machine

/-- Settles O13: each value is read off `State.reset`. -/
theorem resetValues : Obligations.ResetValues :=
  ⟨rfl, rfl, rfl, rfl, rfl, rfl, rfl, rfl, rfl, Memory.read_nil, rfl, rfl⟩

/-- Every command and every illegal word ends in a completion (R182, R183). -/
theorem Effect.completes {s t : State} (h : Effect s t) :
    t.pending = none ∧ t.status.busy = false ∧ t.status.done = true := by
  rcases h.outcome with ⟨c, -, rfl⟩ | ⟨b, he⟩
  · exact ⟨rfl, rfl, rfl⟩
  · rw [he]; exact ⟨rfl, rfl, rfl⟩

/-- What no command writes (R93). -/
theorem Effect.frame {s t : State} (h : Effect s t) :
    t.ctrl = s.ctrl ∧ t.key = s.key ∧ t.iv = s.iv ∧ t.opa = s.opa ∧ t.opb = s.opb ∧ t.nonce = s.nonce ∧
      t.schedule = s.schedule ∧ t.replies = s.replies := by
  rcases h.outcome with ⟨c, -, rfl⟩ | ⟨b, he⟩
  · exact ⟨rfl, rfl, rfl, rfl, rfl, rfl, rfl, rfl⟩
  · rw [he]; exact ⟨rfl, rfl, rfl, rfl, rfl, rfl, rfl, rfl⟩

/-- The code a completion records is one that is written, and a fallback records none (R181, R182, R183). -/
theorem Effect.err_legal {s t : State} (h : Effect s t) :
    legalErr t.status.err = true ∧ (t.status.padfb = true → t.status.err = 0) := by
  rcases h.outcome with ⟨c, hc, rfl⟩ | ⟨b, he⟩
  · refine ⟨?_, fun hp => absurd hp Bool.false_ne_true⟩
    cases c with
    | keyLength => exact absurd rfl hc
    | _ => rfl
  · rw [he]; exact ⟨rfl, fun _ => rfl⟩

/-- Settles O15: the buffer is empty, and every flag is 0. -/
theorem resetMeetsInvariant : Obligations.ResetMeetsInvariant where
  canonical := Memory.reset_wf
  window := Memory.reset_inWindow
  busy_pending := rfl
  err_legal := rfl
  pending_flags h := absurd h Bool.false_ne_true
  fallback_no_error _ := rfl

/-- The invariant looks at STATUS, `pending` and MSG only. -/
theorem State.Inv.congr {s t : State} (h : s.Inv) (hstatus : t.status = s.status) (hpending : t.pending = s.pending)
    (hmsg : t.msg = s.msg) : t.Inv where
  canonical := hmsg ▸ h.canonical
  window := hmsg ▸ h.window
  busy_pending := by rw [hstatus, hpending]; exact h.busy_pending
  err_legal := hstatus ▸ h.err_legal
  pending_flags := hstatus ▸ h.pending_flags
  fallback_no_error := hstatus ▸ h.fallback_no_error

/-- A completion, with or without error, keeps the invariant. -/
theorem State.Inv.effect {s t : State} (h : s.Inv) (he : Effect s t) : t.Inv := by
  obtain ⟨hpending, hbusy, -⟩ := he.completes
  obtain ⟨hlegal, hfallback⟩ := he.err_legal
  exact
    { canonical := he.msg_wf h.canonical
      window := he.msg_inWindow h.window
      busy_pending := by rw [hpending, hbusy]; rfl
      err_legal := hlegal
      pending_flags := fun hb => absurd hb (by rw [hbusy]; exact Bool.false_ne_true)
      fallback_no_error := hfallback }

theorem State.Inv.engineStep {s t : State} (h : s.Inv) (he : engineStep s = .next t) : t.Inv := by
  rcases engineStep_next he with ⟨-, rfl⟩ | he
  · exact h
  · exact h.effect he

theorem State.Inv.acceptCommand {s : State} (h : s.Inv) (w : Word) : (acceptCommand w s).Inv where
  canonical := h.canonical
  window := h.window
  busy_pending := rfl
  err_legal := rfl
  pending_flags _ := ⟨rfl, rfl, rfl⟩
  fallback_no_error _ := rfl

theorem State.Inv.clearDone {s : State} (h : s.Inv) : (clearDone s).Inv where
  canonical := h.canonical
  window := h.window
  busy_pending := h.busy_pending
  err_legal := h.err_legal
  pending_flags hb := ⟨rfl, (h.pending_flags hb).2⟩
  fallback_no_error := h.fallback_no_error

/-- A word written within the window keeps the invariant. -/
theorem State.Inv.writeMsg {s : State} (h : s.Inv) (a : Nat) (bs : List Byte) (ha : a + bs.length ≤ Config.msgCap) :
    State.Inv { s with msg := s.msg.writeBytes a bs } where
  canonical := s.msg.writeBytes_wf a bs h.canonical
  window := s.msg.writeBytes_inWindow a bs h.window ha
  busy_pending := h.busy_pending
  err_legal := h.err_legal
  pending_flags := h.pending_flags
  fallback_no_error := h.fallback_no_error

theorem State.Inv.busWrite {s t : State} (h : s.Inv) {off : Nat} {w : Word} (hw : busWrite off w s = some t) :
    t.Inv := by
  obtain ⟨-, g, hg, hw⟩ := busWrite_some hw
  cases g with
  | cmd => cases hw; exact h.acceptCommand w
  | status =>
    cases hw
    split
    · exact h.clearDone
    · exact h
  | msg j => cases hw; exact h.writeMsg _ _ (decodeOffset_msg hg).2
  | _ => cases hw <;> exact h.congr rfl rfl rfl

theorem State.Inv.hostWrite {s : State} (h : s.Inv) (off : Nat) (w : Word) : (hostWrite off w s).Inv := by
  rcases hostWrite_cases off w s with ⟨t, ht, he⟩ | ⟨-, he⟩ <;> rw [he]
  · exact (h.busWrite ht).congr rfl rfl rfl
  · exact h.congr rfl rfl rfl

/-- Settles O55: the invariant does not look at the schedule, and each kind of turn keeps it. -/
theorem stepKeepsInvariant : Obligations.StepKeepsInvariant := by
  intro s t hs h
  have hturn : ∀ ts, (setSchedule ts s).Inv := fun ts => hs.congr rfl rfl rfl
  rcases step_next h with ⟨-, he⟩ | ⟨off, ts, r, -, rfl⟩ | ⟨off, w, ts, -, rfl⟩ | ⟨ts, -, rfl⟩
  · exact (hturn _).engineStep he
  · exact hs.congr rfl rfl rfl
  · exact (hturn ts).hostWrite off w
  · exact resetMeetsInvariant.congr rfl rfl rfl

end Sys2Proof.Machine

/-! PROOFS. Which commands write RES, LEN and the draw counter (30_encoding.md R93), and the level of irq (10_state.md R45). -/

namespace Sys2Proof.Machine

theorem finishDecrypt_res (p : List Byte) (s : State) : (finishDecrypt p s).res = s.res := by
  rcases finishDecrypt_cases p s with ⟨b, n, -, he⟩ | ⟨-, he⟩ <;> rw [he] <;> rfl

/-- A command that runs on an operand leaves RES alone if its effect does. -/
theorem runOn_res {x : Operand} {s t : State} {k : List Byte → State} (h : runOn x s k = .next t)
    (hk : ∀ bs, (k bs).res = s.res) : t.res = s.res := by
  rcases runOn_next h with ⟨bs, -, rfl⟩ | ⟨c, -, rfl⟩
  · exact hk bs
  · rfl

theorem execPad_res {s t : State} (h : execPad s = .next t) : t.res = s.res := by
  unfold execPad at h
  dsimp only at h
  split at h
  · cases h; rfl
  · split at h <;> cases h <;> rfl

theorem execUnpad_res {s t : State} (h : execUnpad s = .next t) : t.res = s.res := by
  unfold execUnpad at h
  dsimp only at h
  split at h
  · cases h; rfl
  · split at h <;> cases h <;> rfl

/-- No command but XOR and INC writes RES (R40). -/
theorem exec_res {i : Instr} {s t : State} (h : exec i s = .next t) (hxor : i ≠ .xor) (hinc : i ≠ .inc) :
    t.res = s.res := by
  cases i with
  | pad => exact execPad_res h
  | unpad => exact execUnpad_res h
  | xor => exact absurd rfl hxor
  | inc => exact absurd rfl hinc
  | ecbEnc => exact runOn_res h fun _ => rfl
  | ecbDec => exact runOn_res h fun _ => finishDecrypt_res _ s
  | cbcEnc => exact runOn_res h fun _ => rfl
  | cbcDec => exact runOn_res h fun _ => finishDecrypt_res _ s
  | ctrEnc => exact runOn_res h fun _ => rfl
  | ctrDec => exact runOn_res h fun _ => finishDecrypt_res _ s

/-- XOR and INC leave LEN alone (R131, R141). -/
theorem exec_len {i : Instr} {s t : State} (h : exec i s = .next t) (hi : i = .xor ∨ i = .inc) : t.len = s.len := by
  rcases hi with rfl | rfl <;> cases h <;> rfl

/-- With NONCE_SEL = 1 not even CTR_ENC uses up a draw (R173). -/
theorem exec_draws_nonceSel {i : Instr} {s t : State} (h : exec i s = .next t)
    (hi : i ≠ .ctrEnc ∨ s.ctrl.nonceSel = true) : t.draws = s.draws := by
  by_cases hc : i = .ctrEnc
  · subst hc
    rcases execCtrEnc_draws h with hd | ⟨-, hsel, -⟩
    · exact hd
    · rcases hi with hi | hi
      · exact absurd rfl hi
      · rw [hsel] at hi; cases hi
  · exact exec_draws h hc

/-- Settles O49: the common frame is `Effect`'s, and RES, LEN and the draw counter have a lemma each. -/
theorem commandFrame : Obligations.CommandFrame := fun _ _ _ h =>
  ⟨(exec_effect h).frame, exec_res h, exec_len h, exec_draws_nonceSel h, (exec_effect h).completes⟩

/-- Only the engine's step of a pending XOR or INC writes RES (R40). -/
theorem engineStep_res {s t : State} (h : engineStep s = .next t) (hne : t.res ≠ s.res) :
    s.pending = some (encode .xor) ∨ s.pending = some (encode .inc) := by
  unfold engineStep at h
  split at h
  · cases h; exact absurd rfl hne
  · rename_i w hw
    split at h
    · rename_i i hd
      rw [hw, decode_eq_ok hd]
      by_cases hxor : i = .xor
      · exact .inl (by rw [hxor])
      · by_cases hinc : i = .inc
        · exact .inr (by rw [hinc])
        · exact absurd (exec_res h hxor hinc) hne
    · cases h; exact absurd rfl hne

/-- With a command pending, the engine's step ends in its completion. -/
theorem engineStep_effect {s t : State} (hp : s.pending ≠ none) (h : engineStep s = .next t) : Effect s t := by
  rcases engineStep_next h with ⟨hn, -⟩ | he
  · exact absurd hn hp
  · exact he

/-- Settles O24: the three writes by the table of R65, the completion by `Effect.completes`. -/
theorem irqIsLevelOfDone : Obligations.IrqIsLevelOfDone := by
  intro s
  refine ⟨irq_eq s, fun w t h => ?_, fun w t hw h => ?_, fun w t hw h => ?_, fun w t hp h => ?_⟩
  · cases writeTarget_of_busWrite decodeOffset_cmd h; rfl
  · have hclear : writeTarget .status w s = some (clearDone s) := by simp only [writeTarget, if_pos hw]
    cases hclear.symm.trans (writeTarget_of_busWrite decodeOffset_status h); rfl
  · cases writeTarget_of_busWrite decodeOffset_ctrl h
    exact ⟨by simp only [irq_eq, ctrlOfWord, hw, Bool.and_false], rfl⟩
  · have he := engineStep_effect (by rw [hp]; exact Option.some_ne_none w) h
    obtain ⟨-, -, hdone⟩ := he.completes
    obtain ⟨hctrl, -⟩ := he.frame
    rw [irq_eq, hdone, hctrl, Bool.true_and]

end Sys2Proof.Machine

/-! PROOFS. Which events change the state: a step is a reset, the engine's step of a pending command, an accepted host
write, or it leaves the block as it was (10_state.md R46, R197, 60_exceptions.md R186). -/

namespace Sys2Proof.Machine

/-- The next turn is a write of the target `g` that the port takes, and the step is that write and its reply. -/
def acceptedWrite (g : Target) (w : Word) (s t : State) : Prop :=
  s.status.busy = false ∧ ∃ ts u, s.schedule = .write g.offset w :: ts ∧
    writeTarget g w (setSchedule ts s) = some u ∧ t = addReply .written u

/-- A host write is accepted, or only the bus error is answered. -/
theorem hostWrite_event {off : Nat} {w : Word} {ts : List Turn} {s : State} (hs : s.schedule = .write off w :: ts) :
    (∃ g, acceptedWrite g w s (hostWrite off w (setSchedule ts s))) ∨
      hostWrite off w (setSchedule ts s) = addReply .busError (setSchedule ts s) := by
  rcases hostWrite_cases off w (setSchedule ts s) with ⟨u, hu, he⟩ | ⟨-, he⟩
  · obtain ⟨hb, g, hg, hw⟩ := busWrite_some hu
    obtain ⟨rfl, -⟩ := decodeOffset_eq_some_iff.mp hg
    exact .inl ⟨g, hb, ts, u, hs, hw, he⟩
  · exact .inr he

/-- The idle engine changes nothing (R197). -/
theorem engineStep_idle {s : State} (h : s.pending = none) : engineStep s = .next s := by
  unfold engineStep
  rw [h]

/-- What happens in a step: a reset, the engine's step of a pending command, an accepted host write, or nothing to
the block. -/
theorem step_event {s t : State} (h : step s = .next t) :
    resetComes s ∨ (engineRuns s ∧ ∃ ts, engineStep (setSchedule ts s) = .next t) ∨
      (∃ g w, acceptedWrite g w s t) ∨ ∃ ts rs, t = { s with schedule := ts, replies := rs } := by
  rcases step_next h with ⟨hs, he⟩ | ⟨off, ts, r, -, rfl⟩ | ⟨off, w, ts, hs, rfl⟩ | ⟨ts, hs, rfl⟩
  · by_cases hp : s.pending = none
    · rw [engineStep_idle (s := setSchedule s.schedule.tail s) hp] at he
      cases he
      exact .inr (.inr (.inr ⟨_, _, rfl⟩))
    · exact .inr (.inl ⟨⟨hp, hs⟩, _, he⟩)
  · exact .inr (.inr (.inr ⟨_, _, rfl⟩))
  · rcases hostWrite_event hs with ⟨g, hg⟩ | he
    · exact .inr (.inr (.inl ⟨g, w, hg⟩))
    · rw [he]; exact .inr (.inr (.inr ⟨_, _, rfl⟩))
  · exact .inl ⟨ts, hs⟩

/-- An accepted write of a target whose offset lies in a range is a host write in that range. -/
theorem acceptedWrite.hostWritesIn {g : Target} {w : Word} {s t : State} (h : acceptedWrite g w s t) {lo hi : Nat}
    (hlo : lo ≤ g.offset) (hhi : g.offset < hi) : hostWritesIn lo hi s := by
  obtain ⟨hb, ts, -, hs, -⟩ := h
  exact ⟨hb, g.offset, w, ts, hs, hlo, hhi, g.offset_mod_four⟩

/-- A word written to MSG changes the cells of that word only. -/
theorem read_writeBytes_lanes_ne {m : Memory} {j a : Nat} {w : Word}
    (h : (m.writeBytes (4 * j) (lanes w)).read a ≠ m.read a) : a / 4 = j := by
  by_contra hne
  exact h (m.read_writeBytes_outside _ (by rw [lanes_length]; omega))

/-- Settles O26: each event changes only the fields it names. -/
theorem onlyTheseEventsChangeState : Obligations.OnlyTheseEventsChangeState := by
  intro s t h
  rcases step_event h with hreset | ⟨hrun, ts, he⟩ | ⟨g, w, hw⟩ | ⟨ts, rs, rfl⟩
  · simp [hreset]
  · obtain ⟨hctrl, hkey, hiv, hopa, hopb, hnonce, -, -⟩ :=
      (engineStep_effect (s := setSchedule ts s) hrun.1 he).frame
    have hres : t.res ≠ s.res → resetComes s ∨ s.pending = some (encode .xor) ∨ s.pending = some (encode .inc) :=
      fun hne => .inr (engineStep_res (s := setSchedule ts s) he hne)
    simpa [hrun, hctrl, hkey, hiv, hopa, hopb, hnonce] using hres
  · have hin := fun lo hi => hw.hostWritesIn (lo := lo) (hi := hi)
    obtain ⟨hb, ts, u, hs, hu, rfl⟩ := hw
    cases g with
    | ctrl => cases hu; simp [hin 0x000 0x001 (by decide) (by decide)]
    | cmd => cases hu; simp [hin 0x004 0x005 (by decide) (by decide)]
    | status =>
      cases hu
      by_cases hw1 : w.getLsbD 1 = true
      · have hclear : hostClearsDone s := ⟨hb, w, ts, hs, hw1⟩
        simp only [if_pos hw1]
        simp [hclear]
      · simp only [if_neg hw1]
        simp
    | len => cases hu; simp [hin 0x00C 0x00D (by decide) (by decide)]
    | key j => cases hu; simp [hin 0x020 0x030 (Nat.le_add_right _ _) (by simp only [Target.offset]; omega)]
    | iv j => cases hu; simp [hin 0x030 0x040 (Nat.le_add_right _ _) (by simp only [Target.offset]; omega)]
    | opa j => cases hu; simp [hin 0x040 0x050 (Nat.le_add_right _ _) (by simp only [Target.offset]; omega)]
    | opb j => cases hu; simp [hin 0x050 0x060 (Nat.le_add_right _ _) (by simp only [Target.offset]; omega)]
    | nonce j => cases hu; simp [hin 0x070 0x080 (Nat.le_add_right _ _) (by simp only [Target.offset]; omega)]
    | msg j =>
      cases hu
      have hcell : ∀ a, (s.msg.writeBytes (4 * j) (lanes w)).read a ≠ s.msg.read a → resetComes s ∨
          hostWritesIn (0x1000 + 4 * (a / 4)) (0x1000 + 4 * (a / 4) + 1) s ∨ engineRuns s := fun a ha =>
        read_writeBytes_lanes_ne ha ▸ .inr (.inl (hin _ _ le_rfl (Nat.lt_succ_self _)))
      simpa using hcell
    | _ => cases hu
  · simp

end Sys2Proof.Machine

/-! PROOFS. When a turn stops: the cells the model may not read (93_implementation_defined.md U6, 92_eei_decisions.md D34). -/

namespace Sys2Proof.Machine

/-- An encrypt command's operand is unspecified exactly when its output fits and a cell of its message is unspecified. -/
theorem paddedInput_unspecified_iff {e : Nat} {s : State} :
    paddedInput e s = .unspecified ↔
      s.msg.readBytes 0 s.msgLen = none ∧ s.msgLen + padLen s.msgLen + e ≤ Config.msgCap := by
  rcases paddedInput_cases e s with ⟨m, hm, -, he⟩ | ⟨hl, he⟩ | ⟨hn, hl, he⟩
  · have hsome : s.msg.readBytes 0 s.msgLen = some m := hm
    simp [he, hsome]
  · simp [he]
    omega
  · simp [he, hn, hl]

/-- A decrypt command's operand is unspecified exactly when its length checks pass and a cell of its message is
unspecified. -/
theorem cipherInput_unspecified_iff {n : Nat} {s : State} :
    cipherInput n s = .unspecified ↔
      s.msg.readBytes 0 s.msgLen = none ∧ s.msgLen ≤ Config.msgCap ∧ n ≤ s.msgLen ∧ s.msgLen % 16 = 0 := by
  rcases cipherInput_cases n s with ⟨m, hm, -, -, -, he⟩ | ⟨h1, he⟩ | ⟨-, h2, he⟩ | ⟨-, -, h3, he⟩ | ⟨hn, h1, h2, h3, he⟩
  · have hsome : s.msg.readBytes 0 s.msgLen = some m := hm
    simp [he, hsome]
  · simp [he]; omega
  · simp [he]; omega
  · simp [he, h3]
  · simp [he, hn, h1, h2, h3]

/-- UNPAD finds an unspecified cell only in a message that has one. -/
theorem unpadInPlace_eq_none {m : Memory} {n : Nat} {strict : Bool} (h : unpadInPlace m n strict = none) :
    m.readBytes 0 n = none := by
  cases hm : m.readBytes 0 n with
  | none => rfl
  | some bs => rw [unpadInPlace_eq strict hm] at h; cases h

theorem execPad_next (s : State) : ∃ t, execPad s = .next t := by
  unfold execPad
  dsimp only
  split
  · exact ⟨_, rfl⟩
  · split <;> exact ⟨_, rfl⟩

/-- UNPAD answers a next state, or stops on an unspecified cell of its message. -/
theorem execUnpad_cases (s : State) :
    (∃ t, execUnpad s = .next t) ∨
      (execUnpad s = .fault .unspecifiedCommandRead ∧ s.msg.readBytes 0 s.msgLen = none) := by
  unfold execUnpad
  dsimp only
  split
  · exact .inl ⟨_, rfl⟩
  · split
    · next hn => exact .inr ⟨rfl, unpadInPlace_eq_none hn⟩
    · exact .inl ⟨_, rfl⟩
    · exact .inl ⟨_, rfl⟩
    · exact .inl ⟨_, rfl⟩

/-- A command that runs on an operand answers a next state, or stops because the operand is unspecified. -/
theorem runOn_cases (x : Operand) (s : State) (k : List Byte → State) :
    (∃ t, runOn x s k = .next t) ∨ (runOn x s k = .fault .unspecifiedCommandRead ∧ x = .unspecified) := by
  cases x with
  | bytes bs => exact .inl ⟨_, rfl⟩
  | err c => exact .inl ⟨_, rfl⟩
  | unspecified => exact .inr ⟨rfl, rfl⟩

/-- Every command answers a next state, or stops on an unspecified cell of its message (U6). -/
theorem exec_cases (i : Instr) (s : State) :
    (∃ t, exec i s = .next t) ∨
      (exec i s = .fault .unspecifiedCommandRead ∧ s.msg.readBytes 0 s.msgLen = none) := by
  have hpadded (e k) := (runOn_cases (paddedInput e s) s k).imp_right
    (And.imp_right fun h => (paddedInput_unspecified_iff.mp h).1)
  have hcipher (n k) := (runOn_cases (cipherInput n s) s k).imp_right
    (And.imp_right fun h => (cipherInput_unspecified_iff.mp h).1)
  cases i with
  | pad => exact .inl (execPad_next s)
  | unpad => exact execUnpad_cases s
  | xor => exact .inl ⟨_, rfl⟩
  | inc => exact .inl ⟨_, rfl⟩
  | ecbEnc => exact hpadded _ _
  | ecbDec => exact hcipher _ _
  | cbcEnc => exact hpadded _ _
  | cbcDec => exact hcipher _ _
  | ctrEnc => exact hpadded _ _
  | ctrDec => exact hcipher _ _

/-- The engine answers a next state, or stops while a command is pending that reads an unspecified cell. -/
theorem engineStep_cases (s : State) :
    (∃ t, engineStep s = .next t) ∨
      (engineStep s = .fault .unspecifiedCommandRead ∧ s.pending ≠ none ∧ ¬ s.messageSpecified) := by
  unfold engineStep
  split
  · exact .inl ⟨_, rfl⟩
  · next w hw =>
    split
    · next i _ =>
      exact (exec_cases i s).imp_right fun ⟨hf, hn⟩ => ⟨hf, by rw [hw]; exact Option.some_ne_none w, not_specified hn⟩
    · exact .inl ⟨_, rfl⟩

/-- A host read is answered, or stops because its word has an unspecified cell (U6). -/
theorem hostRead_cases (off : Nat) (s : State) :
    (∃ t, hostRead off s = .next t) ∨
      (hostRead off s = .fault .unspecifiedHostRead ∧ ¬ turnSpecified (.read off) s) := by
  unfold hostRead
  split
  · exact .inl ⟨_, rfl⟩
  · exact .inl ⟨_, rfl⟩
  · next hu =>
    refine .inr ⟨rfl, fun hspec => ?_⟩
    unfold busRead at hu
    split at hu
    · cases hu
    · next g hg =>
      obtain ⟨v, hv⟩ := readTarget_isSome (s := s) fun j hj => hspec j (hj ▸ hg)
      rw [hv] at hu
      split at hu <;> cases hu

/-- Every turn answers a next state, or stops under the name of the agent that read an unspecified cell. -/
theorem runTurn_cases (t : Turn) (s : State) :
    (∃ u, runTurn t s = .next u) ∨ ∃ f, runTurn t s = .fault f ∧ ¬ turnSpecified t s ∧
      (t = .engine ∧ f = .unspecifiedCommandRead ∧ s.pending ≠ none ∨
        ∃ off, t = .read off ∧ f = .unspecifiedHostRead) := by
  cases t with
  | engine =>
    exact (engineStep_cases s).imp_right fun ⟨hf, hp, hs⟩ => ⟨_, hf, hs, .inl ⟨rfl, rfl, hp⟩⟩
  | read off => exact (hostRead_cases off s).imp_right fun ⟨hf, hs⟩ => ⟨_, hf, hs, .inr ⟨off, rfl, rfl⟩⟩
  | write off w => exact .inl ⟨_, rfl⟩
  | reset => exact .inl ⟨_, rfl⟩

/-- Settles O56: a turn that does not answer a next state has read an unspecified cell. -/
theorem turnsStopOnlyOnUnspecified : Obligations.TurnsStopOnlyOnUnspecified := by
  intro t s
  rcases runTurn_cases t s with ⟨u, hu⟩ | ⟨f, hf, hspec, hagent⟩
  · rw [hu]
    exact ⟨fun r => nofun, fun _ => ⟨u, rfl⟩, fun f => nofun⟩
  · rw [hf]
    exact ⟨fun r => nofun, fun h => absurd h hspec, fun f' he => by cases he; exact hagent⟩

/-- An encrypt command whose output fits stops on an unspecified cell. -/
theorem runOn_paddedInput_fault {e : Nat} {s : State} (k : List Byte → State)
    (h : s.msg.readBytes 0 s.msgLen = none) (hfit : s.msgLen + padLen s.msgLen + e ≤ Config.msgCap) :
    runOn (paddedInput e s) s k = .fault .unspecifiedCommandRead :=
  runOn_fault.mpr ⟨paddedInput_unspecified_iff.mpr ⟨h, hfit⟩, rfl⟩

/-- A decrypt command whose length checks pass stops on an unspecified cell. -/
theorem runOn_cipherInput_fault {n : Nat} {s : State} (k : List Byte → State)
    (h : s.msg.readBytes 0 s.msgLen = none) (hcap : s.msgLen ≤ Config.msgCap) (hn : n ≤ s.msgLen)
    (hal : s.msgLen % 16 = 0) : runOn (cipherInput n s) s k = .fault .unspecifiedCommandRead :=
  runOn_fault.mpr ⟨cipherInput_unspecified_iff.mpr ⟨h, hcap, hn, hal⟩, rfl⟩

/-- A MSG word with an unspecified cell has no value (R62). -/
theorem msgWord_eq_none {m : Memory} {j k : Nat} (hk : k < 4) (h : m.read (4 * j + k) = none) : msgWord m j = none := by
  unfold msgWord
  split
  · next b0 b1 b2 b3 h0 h1 h2 h3 =>
    interval_cases k
    all_goals simp_all
  · rfl

/-- Settles O57: the checks pass, so the operand, or the word, is the unspecified one. -/
theorem unspecifiedCellsStop : Obligations.UnspecifiedCellsStop := by
  refine ⟨fun s hnone => ⟨fun hfit => ?_, fun hfit => ?_, fun hcap hal => ?_⟩, fun s j k hb hj hk hnone => ?_⟩
  · exact ⟨runOn_paddedInput_fault _ hnone hfit, runOn_paddedInput_fault _ hnone hfit⟩
  · exact runOn_paddedInput_fault _ hnone hfit
  · have hpos : s.msgLen ≠ 0 := fun h0 => by rw [h0] at hnone; cases hnone
    have htrailer : blockBytes ≤ s.msgLen := by unfold blockBytes; omega
    exact ⟨runOn_cipherInput_fault _ hnone hcap (Nat.zero_le _) hal,
      runOn_cipherInput_fault _ hnone hcap (Nat.zero_le _) hal, runOn_cipherInput_fault _ hnone hcap htrailer hal⟩
  · have hread : busRead (0x1000 + 4 * j) s = .unspecified := by
      simp [busRead, decodeOffset_msgWord hj, hb, readTarget, msgWord_eq_none hk hnone]
    simp only [hostRead, hread]

end Sys2Proof.Machine

/-! PROOFS. The blocks of a byte sequence and the bytes of its blocks (20_memory.md R70, R71). -/

namespace Sys2Proof.Machine

/-- Block `i` of a grouping is the slice at `16i` (R70). -/
theorem groupN_getElem? {n i : Nat} (s : List Byte) (h : i < n) :
    (groupN n s)[i]? = some (blockOfBytes ((s.drop (16 * i)).take 16)) := by
  induction n generalizing s i with
  | zero => omega
  | succ n ih =>
    cases i with
    | zero => rfl
    | succ i =>
      have hoff : blockBytes + 16 * i = 16 * (i + 1) := by unfold blockBytes; omega
      rw [groupN, List.getElem?_cons_succ, ih (s.drop blockBytes) (by omega), List.drop_drop, hoff]

theorem group_getElem? {s : List Byte} {i : Nat} (h : i < s.length / 16) :
    (group s)[i]? = some (blockOfBytes ((s.drop (16 * i)).take 16)) :=
  groupN_getElem? s h

theorem ungroup_groupN {n : Nat} {s : List Byte} (h : s.length = 16 * n) : ungroup (groupN n s) = s := by
  induction n generalizing s with
  | zero => exact (List.length_eq_zero_iff.mp h).symm
  | succ n ih =>
    have hb : blockBytes = 16 := rfl
    have htake : (s.take blockBytes).length = 16 := by rw [List.length_take]; omega
    have hdrop : (s.drop blockBytes).length = 16 * n := by rw [List.length_drop]; omega
    rw [groupN, ungroup_cons, toList_blockOfBytes _ htake, ih hdrop, List.take_append_drop]

/-- The bytes of the blocks of an aligned sequence are the sequence (R71). -/
theorem ungroup_group {s : List Byte} (h : s.length % 16 = 0) : ungroup (group s) = s :=
  ungroup_groupN (by unfold blockBytes; omega)

/-- The bytes of block `i` stand at `16i` of the bytes of all blocks (R71). -/
theorem ungroup_slice {bs : List Block} {i : Nat} {b : Block} (h : bs[i]? = some b) :
    ((ungroup bs).drop (16 * i)).take 16 = b.toList := by
  have hi : i < bs.length := (List.getElem?_eq_some_iff.mp h).1
  have hb : blockOfBytes (((ungroup bs).drop (16 * i)).take 16) = b := by
    rw [← group_ungroup bs, group_getElem? (by rw [ungroup_length]; omega)] at h
    exact Option.some.inj h
  rw [← hb, toList_blockOfBytes]
  simp only [List.length_take, List.length_drop, ungroup_length]
  omega

/-- `MemRead` of a part of what `MemWrite` wrote (R15). -/
theorem Memory.readBytes_writeBytes_slice (m : Memory) (a : Nat) {bs : List Byte} {k n : Nat}
    (h : k + n ≤ bs.length) : (m.writeBytes a bs).readBytes (a + k) n = some ((bs.drop k).take n) := by
  refine (Memory.readBytes_eq_some _ _ _ _).mpr ⟨by simp; omega, fun i hi => ?_⟩
  have hidx : a + k + i - a = k + i := by omega
  rw [Memory.read_writeBytes, if_pos (by omega), hidx, List.getElem?_take_of_lt hi, List.getElem?_drop]

/-- Settles O4: `ungroup` of the slices is the sequence, and the stored bytes read back slice by slice. -/
theorem ungroupInvertsGroup : Obligations.UngroupInvertsGroup := by
  refine ⟨fun s hs => ⟨ungroup_group hs, group_length s, fun i => group_getElem?⟩, fun m bs i b hb => ?_⟩
  have hi : i < bs.length := (List.getElem?_eq_some_iff.mp hb).1
  rw [← Nat.zero_add (16 * i), Memory.readBytes_writeBytes_slice m 0 (by rw [ungroup_length]; omega), ungroup_slice hb]

end Sys2Proof.Machine

/-! PROOFS. Which accesses get a bus error, and what those that do not read and write (20_memory.md R61, R64, R65, R67,
60_exceptions.md R186). -/

namespace Sys2Proof.Machine

/-- The reserved offsets below the MSG window (R64). -/
theorem registerAt_eq_none_iff {off : Nat} (hal : off % 4 = 0) :
    registerAt off = none ↔ 0x018 ≤ off ∧ off < 0x020 ∨ 0x080 ≤ off := by
  unfold registerAt
  repeat' split
  all_goals simp only [reduceCtorEq, false_iff, true_iff, imp_false] at *; omega

/-- The unmapped offsets: the misaligned and the reserved ones (R61, R64). -/
theorem decodeOffset_eq_none_iff {off : Nat} :
    decodeOffset off = none ↔ off % 4 ≠ 0 ∨ 0x018 ≤ off ∧ off < 0x020 ∨ 0x080 ≤ off ∧ off < 0x1000 ∨
      0x1000 + Config.msgCap ≤ off := by
  unfold decodeOffset
  split
  · next hal => simp [hal]
  · split
    · next hal hlt => rw [registerAt_eq_none_iff (by omega)]; omega
    · split
      · simp only [reduceCtorEq, false_iff]; omega
      · simp only [true_iff]; omega

theorem busRead_unmapped {off : Nat} (s : State) (h : decodeOffset off = none) : busRead off s = .busError := by
  simp only [busRead, h]

theorem busWrite_unmapped {off : Nat} (w : Word) (s : State) (h : decodeOffset off = none) :
    busWrite off w s = none := by
  simp only [busWrite, h]

/-- A refused read changes nothing but the reply (R186). -/
theorem hostRead_refused {off : Nat} {s : State} (h : busRead off s = .busError) :
    hostRead off s = .next (addReply .busError s) := by
  simp only [hostRead, h]

/-- A refused write changes nothing but the reply (R186). -/
theorem hostWrite_refused {off : Nat} {w : Word} {s : State} (h : busWrite off w s = none) :
    hostWrite off w s = addReply .busError s := by
  simp only [hostWrite, h]

/-- Settles O16: the map by `decodeOffset_eq_some_iff`, its complement by `decodeOffset_eq_none_iff`. -/
theorem offsetMapIsExact : Obligations.OffsetMapIsExact :=
  ⟨fun _ _ => decodeOffset_eq_some_iff, fun _ => decodeOffset_eq_none_iff, fun _ w s h =>
    ⟨hostRead_refused (busRead_unmapped s h), hostWrite_refused (busWrite_unmapped w s h)⟩⟩

/-- The read-only offsets: CAP, BLKSZ and RES (R24, R65). -/
theorem Target.isReadOnly_iff (g : Target) :
    g.isReadOnly = true ↔ g.offset = 0x010 ∨ g.offset = 0x014 ∨ 0x060 ≤ g.offset ∧ g.offset < 0x070 := by
  cases g with
  | cap => exact iff_of_true rfl (.inl rfl)
  | blksz => exact iff_of_true rfl (.inr (.inl rfl))
  | _ => simp only [Target.isReadOnly, Target.offset, Bool.false_eq_true, false_iff, true_iff]; omega

/-- The offsets that cannot be read while BUSY = 1: all but CTRL, STATUS, CAP and BLKSZ (R67). -/
theorem Target.not_readableWhileBusy_iff (g : Target) :
    g.readableWhileBusy = false ↔
      g.offset ≠ 0x000 ∧ g.offset ≠ 0x008 ∧ g.offset ≠ 0x010 ∧ g.offset ≠ 0x014 := by
  cases g <;> simp only [Target.readableWhileBusy, Target.offset, Bool.true_eq_false, false_iff, true_iff] <;> omega

/-- A write of a mapped offset is refused while BUSY = 1 and by the read-only targets (R65, R67). -/
theorem busWrite_eq_none_iff {off : Nat} {g : Target} {w : Word} {s : State} (hg : decodeOffset off = some g) :
    busWrite off w s = none ↔ s.status.busy = true ∨ g.isReadOnly = true := by
  rw [← Option.not_isSome_iff_eq_none, busWrite_isSome, hg]
  cases s.status.busy <;> simp

/-- A read of a mapped offset is refused exactly while BUSY = 1, where the target is not readable then (R67). -/
theorem busRead_eq_busError_iff {off : Nat} {g : Target} {s : State} (hg : decodeOffset off = some g) :
    busRead off s = .busError ↔ s.status.busy = true ∧ g.readableWhileBusy = false := by
  simp only [busRead, hg]
  split
  · next h => exact iff_of_true rfl h
  · next h => cases readTarget g s <;> exact iff_of_false nofun h

/-- Settles O17: an unmapped offset is refused, and the other conditions are read off the target's own offset. -/
theorem busErrorsAreExact : Obligations.BusErrorsAreExact := by
  intro off w s
  refine ⟨?_, ?_, hostWrite_refused, hostRead_refused⟩
  · cases hg : decodeOffset off with
    | none => simp [busWrite_unmapped w s hg]
    | some g =>
      obtain ⟨rfl, -⟩ := decodeOffset_eq_some_iff.mp hg
      simp only [busWrite_eq_none_iff hg, g.isReadOnly_iff, reduceCtorEq, false_or]
  · cases hg : decodeOffset off with
    | none => simp [busRead_unmapped s hg]
    | some g =>
      obtain ⟨rfl, -⟩ := decodeOffset_eq_some_iff.mp hg
      simp only [busRead_eq_busError_iff hg, g.not_readableWhileBusy_iff, reduceCtorEq, false_or]

end Sys2Proof.Machine

/-! PROOFS. The lanes of a bus word in the block registers and in the MSG window (20_memory.md R62), and the effects of
the mapped offsets (20_memory.md R65). -/

namespace Sys2Proof.Machine

/-- A byte moved to lane `k` is that lane of the word, and the other lanes are 0. -/
theorem lane_shiftLeft (b : Byte) {k m : Nat} (hk : k < 4) (hm : m < 4) :
    lane (b.setWidth 32 <<< (8 * k)) m = if m = k then b else 0 := by
  refine BitVec.eq_of_getLsbD_eq fun n hn => ?_
  rw [lane, BitVec.getLsbD_extractLsb', BitVec.getLsbD_shiftLeft, BitVec.getLsbD_setWidth]
  rcases Nat.lt_trichotomy m k with hlt | rfl | hgt
  · have hbelow : 8 * m + n < 8 * k := by omega
    simp [hbelow, Nat.ne_of_lt hlt]
  · have hbit : 8 * m + n - 8 * m = n := by omega
    have hfit : 8 * m + n < 32 := by omega
    have hn32 : n < 32 := by omega
    simp [hn, hbit, hfit, hn32]
  · have habove : 8 ≤ 8 * m + n - 8 * k := by omega
    simp [BitVec.getLsbD_of_ge b _ habove, Nat.ne_of_gt hgt]

theorem lane_or (v w : Word) (m : Nat) : lane (v ||| w) m = lane v m ||| lane w m :=
  BitVec.extractLsb'_or

/-- Each lane of a word made of four bytes is its byte (R62). -/
theorem lane_wordOfLanes (b : Fin 4 → Byte) (m : Fin 4) :
    lane (wordOfLanes (b 0) (b 1) (b 2) (b 3)) m.val = b m := by
  have hlane : lane (wordOfLanes (b 0) (b 1) (b 2) (b 3)) m.val =
      lane ((b 0).setWidth 32 <<< (8 * 0)) m.val ||| lane ((b 1).setWidth 32 <<< (8 * 1)) m.val |||
        lane ((b 2).setWidth 32 <<< (8 * 2)) m.val ||| lane ((b 3).setWidth 32 <<< (8 * 3)) m.val := by
    simp [wordOfLanes, lane_or]
  rw [hlane]
  simp (disch := omega) only [lane_shiftLeft]
  fin_cases m <;> simp

/-- A word is its four lanes (R62). -/
theorem word_ext_lanes {v w : Word} (h : ∀ m : Fin 4, lane v m.val = lane w m.val) : v = w := by
  refine BitVec.eq_of_getLsbD_eq fun n hn => ?_
  have hbit (u : Word) : (lane u (n / 8)).getLsbD (n % 8) = u.getLsbD n := by
    have hn8 : n % 8 < 8 := Nat.mod_lt _ (by decide)
    rw [lane, BitVec.getLsbD_extractLsb', Nat.div_add_mod, decide_eq_true hn8, Bool.true_and]
  rw [← hbit v, ← hbit w, h ⟨n / 8, by omega⟩]

/-- The word made of the lanes of a word is that word (R62). -/
theorem wordOfLanes_lane (w : Word) : wordOfLanes (lane w 0) (lane w 1) (lane w 2) (lane w 3) = w :=
  word_ext_lanes fun m => lane_wordOfLanes (fun k => lane w k.val) m

/-- Each byte a bus word writes is a lane of it (R62). -/
theorem lanes_getElem? (w : Word) (m : Fin 4) : (lanes w)[m.val]? = some (lane w m.val) := by
  fin_cases m <;> rfl

/-- Lane `m` of word `j` of a block is byte `4j+m` (R62). -/
theorem lane_blockWord (x : Block) (j m : Fin 4) :
    lane (blockWord x j) m.val = x[4 * j.val + m.val]'(by omega) :=
  lane_wordOfLanes (fun k => x[4 * j.val + k.val]'(by omega)) m

/-- What byte `i` of a block register holds after a write of word `j` (R62): the four stores go to bytes `4j .. 4j+3`. -/
theorem setBlockWord_getElem (x : Block) (j : Fin 4) (w : Word) {i : Nat} (hi : i < 16) :
    (setBlockWord x j w)[i] = if i / 4 = j.val then lane w (i % 4) else x[i] := by
  simp only [setBlockWord, Vector.getElem_set]
  grind

/-- Byte `4j+m` of a block register after a write of word `j` is lane `m` of it (R62). -/
theorem setBlockWord_getElem_lane (x : Block) (j m : Fin 4) (w : Word) :
    (setBlockWord x j w)[4 * j.val + m.val]'(by omega) = lane w m.val := by
  have hdiv : (4 * j.val + m.val) / 4 = j.val := by omega
  have hmod : (4 * j.val + m.val) % 4 = m.val := by omega
  rw [setBlockWord_getElem, if_pos hdiv, hmod]

/-- A word written to a block register reads back (R62). -/
theorem blockWord_setBlockWord (x : Block) (j : Fin 4) (w : Word) : blockWord (setBlockWord x j w) j = w :=
  word_ext_lanes fun m => (lane_blockWord _ j m).trans (setBlockWord_getElem_lane x j m w)

/-- A MSG word has a value exactly when its four cells hold the lanes of that value (R62). -/
theorem msgWord_eq_some_iff {mem : Memory} {j : Nat} {v : Word} :
    msgWord mem j = some v ↔ ∀ m : Fin 4, mem.read (4 * j + m.val) = some (lane v m.val) := by
  unfold msgWord
  constructor
  · intro h
    split at h
    · next b0 b1 b2 b3 h0 h1 h2 h3 =>
      cases h
      intro m
      have hlane : lane (wordOfLanes b0 b1 b2 b3) m.val = ![b0, b1, b2, b3] m := lane_wordOfLanes ![b0, b1, b2, b3] m
      rw [hlane]
      fin_cases m
      · exact h0
      · exact h1
      · exact h2
      · exact h3
    · cases h
  · intro h
    have h0 : mem.read (4 * j) = some (lane v 0) := h 0
    have h1 : mem.read (4 * j + 1) = some (lane v 1) := h 1
    have h2 : mem.read (4 * j + 2) = some (lane v 2) := h 2
    have h3 : mem.read (4 * j + 3) = some (lane v 3) := h 3
    simp only [h0, h1, h2, h3, wordOfLanes_lane]

/-- A write of a MSG word puts its lanes in the word's cells (R62). -/
theorem read_writeBytes_lanes (mem : Memory) (j : Nat) (m : Fin 4) (w : Word) :
    (mem.writeBytes (4 * j) (lanes w)).read (4 * j + m.val) = some (lane w m.val) := by
  rw [Memory.read_writeBytes, if_pos (by rw [lanes_length]; omega), Nat.add_sub_cancel_left, lanes_getElem?]

/-- A word written to the MSG window reads back (R62). -/
theorem msgWord_writeBytes_lanes (mem : Memory) (j : Nat) (w : Word) :
    msgWord (mem.writeBytes (4 * j) (lanes w)) j = some w :=
  msgWord_eq_some_iff.mpr fun m => read_writeBytes_lanes mem j m w

/-- Settles O19: the register clauses byte by byte, the MSG clauses by the cells of a word. -/
theorem laneOrder : Obligations.LaneOrder := by
  refine ⟨fun x j m w => ⟨?_, lane_blockWord x j m, fun i hi => ?_⟩, read_writeBytes_lanes, fun _ _ _ =>
    msgWord_eq_some_iff.mp⟩
  · exact Vector.getElem?_eq_some_iff.mpr ⟨by omega, setBlockWord_getElem_lane x j m w⟩
  · rw [setBlockWord_getElem, if_neg hi]

/-- While BUSY = 0 a read of a mapped target returns its column of R65. -/
theorem busRead_offset_idle {g : Target} {s : State} {v : Word} (hm : g.isMapped = true)
    (hb : s.status.busy = false) (hv : readTarget g s = some v) : busRead g.offset s = .data v :=
  busRead_data (decodeOffset_offset hm) (.inl hb) hv

/-- While BUSY = 0 a write of a mapped target is its column of R65. -/
theorem busWrite_offset_idle {g : Target} {s : State} (w : Word) (hm : g.isMapped = true)
    (hb : s.status.busy = false) : busWrite g.offset w s = writeTarget g w s :=
  busWrite_idle w (decodeOffset_offset hm) hb

theorem Target.msg_isMapped {j : Nat} (h : 4 * j < Config.msgCap) : (Target.msg j).isMapped = true :=
  decide_eq_true h

/-- Settles O18: each row of R65 is the read or the write of its target. -/
theorem portEffects : Obligations.PortEffects := by
  intro s w hb
  have hread {g : Target} {v : Word} (hm : g.isMapped = true) (hv : readTarget g s = some v) :
      busRead g.offset s = .data v := busRead_offset_idle hm hb hv
  have hwrite {g : Target} (hm : g.isMapped = true) : busWrite g.offset w s = writeTarget g w s :=
    busWrite_offset_idle w hm hb
  refine ⟨?_, fun j => ?_, fun j b0 b1 b2 b3 hj h0 h1 h2 h3 => ?_, ?_, fun j => ?_, fun j hj => ?_,
    fun _ _ => hostRead_next⟩
  · exact ⟨hread (g := .ctrl) rfl rfl, hread (g := .cmd) rfl rfl, hread (g := .status) rfl rfl,
      hread (g := .len) rfl rfl, hread (g := .cap) rfl rfl, hread (g := .blksz) rfl rfl⟩
  · exact ⟨hread (g := .key j) rfl rfl, hread (g := .iv j) rfl rfl, hread (g := .opa j) rfl rfl,
      hread (g := .opb j) rfl rfl, hread (g := .res j) rfl rfl, hread (g := .nonce j) rfl rfl⟩
  · exact hread (g := .msg j) (Target.msg_isMapped hj) (by simp only [readTarget, msgWord, h0, h1, h2, h3])
  · exact ⟨hwrite (g := .ctrl) rfl, hwrite (g := .cmd) rfl, hwrite (g := .status) rfl, hwrite (g := .len) rfl,
      hwrite (g := .cap) rfl, hwrite (g := .blksz) rfl⟩
  · exact ⟨hwrite (g := .key j) rfl, hwrite (g := .iv j) rfl, hwrite (g := .opa j) rfl, hwrite (g := .opb j) rfl,
      hwrite (g := .res j) rfl, hwrite (g := .nonce j) rfl⟩
  · exact hwrite (g := .msg j) (Target.msg_isMapped hj)

/-- Settles O20: the offsets name LEN, a word of IV, OPA, OPB or NONCE, or a MSG word, and each of them reads back. -/
theorem writtenWordReadsBack : Obligations.WrittenWordReadsBack := by
  intro off w s t h hoff
  obtain ⟨hb, g, hg, hw⟩ := busWrite_some h
  obtain ⟨rfl, hm⟩ := decodeOffset_eq_some_iff.mp hg
  have hback {x : Block} {j : Fin 4} : some (blockWord (setBlockWord x j w) j) = some w :=
    congrArg some (blockWord_setBlockWord x j w)
  cases g with
  | len => cases hw; exact busRead_offset_idle hm hb rfl
  | iv j => cases hw; exact busRead_offset_idle hm hb hback
  | opa j => cases hw; exact busRead_offset_idle hm hb hback
  | opb j => cases hw; exact busRead_offset_idle hm hb hback
  | nonce j => cases hw; exact busRead_offset_idle hm hb hback
  | msg j => cases hw; exact busRead_offset_idle hm hb (msgWord_writeBytes_lanes s.msg j w)
  | _ => simp only [Target.offset] at hoff; omega

end Sys2Proof.Machine

/-! PROOFS. Host turns: a step serves the access that comes next, and while BUSY = 1 an access only adds a reply, which
no command looks at (20_memory.md R67, R68, R75, R77, 30_encoding.md R95). -/

namespace Sys2Proof.Machine

/-- A step with a turn scheduled is that turn, on the state without it (R22, R75). -/
theorem step_turn {s : State} {t : Turn} {ts : List Turn} (h : s.schedule = t :: ts) :
    step s = runTurn t (setSchedule ts s) := by
  simp only [step, nextTurn, h]

/-- With no turn scheduled the step is the engine's. -/
theorem step_engine {s : State} (h : s.schedule = []) : step s = engineStep s := by
  simp only [step, nextTurn, h]

/-- No target's read value depends on the turns to come. -/
theorem readTarget_setSchedule (g : Target) (ts : List Turn) (s : State) :
    readTarget g (setSchedule ts s) = readTarget g s := by
  cases g <;> rfl

@[simp] theorem busRead_setSchedule (off : Nat) (ts : List Turn) (s : State) :
    busRead off (setSchedule ts s) = busRead off s := by
  simp only [busRead, readTarget_setSchedule, setSchedule_status]

theorem hostRead_data {off : Nat} {v : Word} {s : State} (h : busRead off s = .data v) :
    hostRead off s = .next (addReply (.data v) s) := by
  simp only [hostRead, h]

theorem hostRead_unspecified {off : Nat} {s : State} (h : busRead off s = .unspecified) :
    hostRead off s = .fault .unspecifiedHostRead := by
  simp only [hostRead, h]

theorem hostWrite_taken {off : Nat} {w : Word} {s t : State} (h : busWrite off w s = some t) :
    hostWrite off w s = addReply .written t := by
  simp only [hostWrite, h]

/-- Settles O58: the step is the turn, and the three ends of an access are those of `busWrite` and `busRead`. -/
theorem stepServesHostAccess : Obligations.StepServesHostAccess := by
  intro s ts off
  refine ⟨fun w hs => ?_, fun hs => ?_⟩
  · have hstep : step s = .next (hostWrite off w (setSchedule ts s)) := step_turn hs
    refine ⟨hstep, fun t ht => ?_, fun hrefused => ?_⟩
    · obtain ⟨hsched, hreplies⟩ : t.schedule = ts ∧ t.replies = s.replies := busWrite_keeps_host ht
      have htaken : hostWrite off w (setSchedule ts s) = addReply .written t := hostWrite_taken ht
      refine ⟨?_, hsched, hreplies⟩
      rw [hstep, htaken, addReply, hreplies]
    · exact hstep.trans (congrArg _ (hostWrite_refused hrefused))
  · have hstep : step s = hostRead off (setSchedule ts s) := step_turn hs
    have hread := busRead_setSchedule off ts s
    exact ⟨hstep, fun v hv => hstep.trans (hostRead_data (hread.trans hv)),
      fun hv => hstep.trans (hostRead_refused (hread.trans hv)),
      fun hv => hstep.trans (hostRead_unspecified (hread.trans hv))⟩

/-- What can be read while BUSY = 1 is a register, which always has a value. -/
theorem busRead_busy_ne_unspecified {off : Nat} {s : State} (hb : s.status.busy = true) :
    busRead off s ≠ .unspecified := by
  cases hg : decodeOffset off with
  | none => rw [busRead_unmapped s hg]; exact nofun
  | some g =>
    cases hr : g.readableWhileBusy with
    | false => rw [(busRead_eq_busError_iff hg).mpr ⟨hb, hr⟩]; exact nofun
    | true =>
      obtain ⟨v, hv⟩ := readTarget_isSome (t := g) (s := s) fun j hj => by rw [hj] at hr; cases hr
      rw [busRead_data hg (.inr hr) hv]
      exact nofun

/-- While BUSY = 1 an access has no effect but one reply (R67, R77). -/
theorem runTurn_access_busy {t : Turn} {s : State} (hb : s.status.busy = true) (ht : t.isAccess = true) :
    ∃ r, runTurn t s = .next (addReply r s) := by
  cases t with
  | read off =>
    cases hv : busRead off s with
    | data v => exact ⟨.data v, hostRead_data hv⟩
    | busError => exact ⟨.busError, hostRead_refused hv⟩
    | unspecified => exact absurd hv (busRead_busy_ne_unspecified hb)
  | write off w =>
    have hrefused : busWrite off w s = none := by
      rw [← Option.not_isSome_iff_eq_none, busWrite_isSome, hb]
      simp
    exact ⟨.busError, congrArg _ (hostWrite_refused hrefused)⟩
  | engine => cases ht
  | reset => cases ht

/-- A command on its operand commutes with one more reply if its effect does. -/
theorem runOn_addReply {x : Operand} {s : State} {r : Reply} {k k' : List Byte → State}
    (hk : ∀ bs, k' bs = addReply r (k bs)) :
    runOn x (addReply r s) k' = mapNext (addReply r) (runOn x s k) := by
  cases x with
  | bytes bs => exact congrArg _ (hk bs)
  | err c => rfl
  | unspecified => rfl

theorem finishDecrypt_addReply (p : List Byte) (r : Reply) (s : State) :
    finishDecrypt p (addReply r s) = addReply r (finishDecrypt p s) := by
  unfold finishDecrypt
  rw [addReply_ctrl]
  cases unpad p s.ctrl.strictUnpad <;> rfl

/-- PAD raises CapacityExceeded when the padded message does not fit (R113). -/
theorem execPad_overflow {s : State} (h : Config.msgCap < s.msgLen + padLen s.msgLen) :
    execPad s = .next (raiseErr .capacityExceeded s) := by
  simp only [execPad, gt_iff_lt, if_pos h, ite_self]

/-- PAD stores the trailer after the message when the padded message fits (R113). -/
theorem execPad_fits {s : State} (h : s.msgLen + padLen s.msgLen ≤ Config.msgCap) :
    execPad s = .next (complete false
      { s with msg := s.msg.writeBytes s.msgLen (padBytes s.msgLen),
               len := BitVec.ofNat 32 (s.msgLen + padLen s.msgLen) }) := by
  unfold execPad
  rw [if_neg (by omega), if_neg (by omega)]

theorem execPad_addReply (r : Reply) (s : State) :
    execPad (addReply r s) = mapNext (addReply r) (execPad s) := by
  rcases Nat.lt_or_ge Config.msgCap (s.msgLen + padLen s.msgLen) with h | h
  · rw [execPad_overflow h, execPad_overflow (s := addReply r s) h]; rfl
  · rw [execPad_fits h, execPad_fits (s := addReply r s) h]; rfl

theorem execUnpad_addReply (r : Reply) (s : State) :
    execUnpad (addReply r s) = mapNext (addReply r) (execUnpad s) := by
  have hlen : (addReply r s).msgLen = s.msgLen := rfl
  simp only [execUnpad, hlen, addReply_msg, addReply_ctrl]
  by_cases hcap : s.msgLen > Config.msgCap
  · simp only [if_pos hcap]; rfl
  · simp only [if_neg hcap]
    rcases unpadInPlace s.msg s.msgLen s.ctrl.strictUnpad with _ | _ | _ | _ <;> rfl

/-- No command looks at the replies, or changes them. -/
theorem exec_addReply (i : Instr) (r : Reply) (s : State) :
    exec i (addReply r s) = mapNext (addReply r) (exec i s) := by
  cases i with
  | pad => exact execPad_addReply r s
  | unpad => exact execUnpad_addReply r s
  | xor => rfl
  | inc => rfl
  | ecbEnc => exact runOn_addReply fun _ => rfl
  | ecbDec => exact runOn_addReply fun _ => finishDecrypt_addReply _ r s
  | cbcEnc => exact runOn_addReply fun _ => rfl
  | cbcDec => exact runOn_addReply fun _ => finishDecrypt_addReply _ r s
  | ctrEnc => exact runOn_addReply fun _ => rfl
  | ctrDec => exact runOn_addReply fun _ => finishDecrypt_addReply _ r s

/-- The engine's step commutes with one more reply. -/
theorem engineStep_addReply (r : Reply) (s : State) :
    engineStep (addReply r s) = mapNext (addReply r) (engineStep s) := by
  unfold engineStep
  rw [addReply_pending]
  split
  · rfl
  · split
    · exact exec_addReply _ r s
    · rfl

/-- Settles O32: an access while BUSY = 1 is one more reply, and the engine's step commutes with that. -/
theorem engineResultIgnoresWhen : Obligations.EngineResultIgnoresWhen := by
  intro s t hb ht
  obtain ⟨r, hr⟩ := runTurn_access_busy hb ht
  exact ⟨r, hr, engineStep_addReply r s⟩

theorem core_run_succ {n : Nat} {s t : State} (h : step s = .next t) :
    Sys2Proof.core.run (n + 1) s = Sys2Proof.core.run n t := by
  have hstep : Sys2Proof.core.step s = .next t := h
  simp only [Host.Core.run, hstep]

/-- While BUSY = 1 the machine serves every scheduled access, and the block stays as it was (R75, R77). -/
theorem run_accesses_busy {ts : List Turn} {s : State} (hs : s.schedule = ts) (hb : s.status.busy = true)
    (hts : ∀ t ∈ ts, t.isAccess = true) :
    ∃ t, Sys2Proof.core.run ts.length s = .next t ∧ t.schedule = [] ∧ t.blockPart = s.blockPart := by
  induction ts generalizing s with
  | nil => exact ⟨s, rfl, hs, rfl⟩
  | cons u ts ih =>
    obtain ⟨r, hr⟩ := runTurn_access_busy (s := setSchedule ts s) hb (hts u List.mem_cons_self)
    obtain ⟨t, hrun, hsched, hblock⟩ := ih (s := addReply r (setSchedule ts s)) rfl hb fun v hv =>
      hts v (List.mem_cons_of_mem u hv)
    have hstep : step s = .next (addReply r (setSchedule ts s)) := (step_turn hs).trans hr
    refine ⟨t, ?_, hsched, hblock⟩
    exact (core_run_succ hstep).trans hrun

/-- Settles O33: the accesses are served one by one, and then no turn is left. -/
theorem engineMovesAfterHost : Obligations.EngineMovesAfterHost := by
  intro s hb hts
  obtain ⟨t, hrun, hsched, hblock⟩ := run_accesses_busy rfl hb hts
  exact ⟨t, hrun, hsched, hblock, step_engine hsched⟩

end Sys2Proof.Machine

/-! PROOFS. The MSG cells a command stores to (20_memory.md R69, 30_encoding.md R93). -/

namespace Sys2Proof.Machine

/-- Every cell outside the range, given as `storedRange` gives it (first cell, number of cells), reads in `t` as it does
in `s`. -/
def sameOutside (range : Nat × Nat) (s t : State) : Prop :=
  ∀ a, a < range.1 ∨ range.1 + range.2 ≤ a → t.msg.read a = s.msg.read a

theorem sameOutside.of_msg_eq {range : Nat × Nat} {s t : State} (h : t.msg = s.msg) : sameOutside range s t :=
  fun a _ => by rw [h]

/-- Storing the bytes of a range changes no other cell (R15). -/
theorem sameOutside.of_writeBytes {range : Nat × Nat} {s t : State} {bs : List Byte}
    (h : t.msg = s.msg.writeBytes range.1 bs) (hlen : bs.length = range.2) : sameOutside range s t :=
  fun a ha => by rw [h, s.msg.read_writeBytes_outside bs (by omega)]

/-- A decrypt command stores its whole decrypted text from cell 0, or nothing (R151, R161, R171). -/
theorem sameOutside.of_finishDecrypt {p : List Byte} {n : Nat} (s : State) (hlen : p.length = n) :
    sameOutside (0, n) s (finishDecrypt p s) := by
  rcases finishDecrypt_cases p s with ⟨b, kept, -, he⟩ | ⟨-, he⟩ <;> rw [he]
  · exact .of_writeBytes rfl hlen
  · exact .of_msg_eq rfl

/-- An encrypt command stores only where its effect on the padded message does (R183). -/
theorem sameOutside.of_encrypt {e : Nat} {range : Nat × Nat} {s t : State} {k : List Byte → State}
    (h : runOn (paddedInput e s) s k = .next t)
    (hk : ∀ m, m.length = s.msgLen → sameOutside range s (k (pad m))) : sameOutside range s t := by
  rcases paddedInput_cases e s with ⟨m, hm, -, he⟩ | ⟨-, he⟩ | ⟨-, -, he⟩ <;> rw [he] at h <;> cases h
  · exact hk m (Memory.readBytes_length hm)
  · exact .of_msg_eq rfl

/-- A decrypt command stores only where its effect on an aligned message does (R183). -/
theorem sameOutside.of_decrypt {n : Nat} {range : Nat × Nat} {s t : State} {k : List Byte → State}
    (h : runOn (cipherInput n s) s k = .next t)
    (hk : ∀ m, m.length = s.msgLen → n ≤ m.length → m.length % 16 = 0 → sameOutside range s (k m)) :
    sameOutside range s t := by
  rcases runOn_next h with ⟨m, hm, rfl⟩ | ⟨c, -, rfl⟩
  · rcases cipherInput_cases n s with ⟨m', hm', -, hn, hal, he⟩ | ⟨-, he⟩ | ⟨-, -, he⟩ | ⟨-, -, -, he⟩ | ⟨-, -, -, -, he⟩
      <;> rw [he] at hm <;> cases hm
    have hlen := Memory.readBytes_length hm'
    exact hk m hlen (by omega) (by omega)
  · exact .of_msg_eq rfl

theorem execPad_sameOutside {s t : State} (h : execPad s = .next t) :
    sameOutside (s.msgLen, padLen s.msgLen) s t := by
  rcases Nat.lt_or_ge Config.msgCap (s.msgLen + padLen s.msgLen) with hl | hl
  · rw [execPad_overflow hl] at h; cases h; exact .of_msg_eq rfl
  · rw [execPad_fits hl] at h; cases h; exact .of_writeBytes rfl (padBytes_length _)

/-- UNPAD writes no cell (R114). -/
theorem execUnpad_msg {s t : State} (h : execUnpad s = .next t) : t.msg = s.msg := by
  unfold execUnpad at h
  dsimp only at h
  split at h
  · cases h; rfl
  · split at h <;> cases h <;> rfl

/-- Settles O50: each command stores as many bytes as its rule lists. -/
theorem commandMemoryFrame : Obligations.CommandMemoryFrame := by
  intro i s t a h
  have hpad {m : List Byte} (hm : m.length = s.msgLen) : (pad m).length = s.msgLen + padLen s.msgLen := by
    rw [pad_length, hm]
  suffices hrange : sameOutside (storedRange i s) s t from hrange a
  cases i with
  | pad => exact execPad_sameOutside h
  | unpad => exact .of_msg_eq (execUnpad_msg h)
  | xor => cases h; exact .of_msg_eq rfl
  | inc => cases h; exact .of_msg_eq rfl
  | ecbEnc =>
    refine .of_encrypt h fun m hm => .of_writeBytes rfl ?_
    rw [ungroup_length_of_group (ecbEncrypt_length _ _) (pad_length_mod m), hpad hm]; rfl
  | ecbDec =>
    refine .of_decrypt h fun m hm _ hal => .of_finishDecrypt s ?_
    rw [ungroup_length_of_group (ecbDecrypt_length _ _) hal, hm]
  | cbcEnc =>
    refine .of_encrypt h fun m hm => .of_writeBytes rfl ?_
    rw [ungroup_length_of_group (cbcEncrypt_length _ _ _) (pad_length_mod m), hpad hm]; rfl
  | cbcDec =>
    refine .of_decrypt h fun m hm _ hal => .of_finishDecrypt s ?_
    rw [ungroup_length_of_group (cbcDecrypt_length _ _ _) hal, hm]
  | ctrEnc =>
    refine .of_encrypt h fun m hm => .of_writeBytes rfl ?_
    rw [List.length_append, ungroup_length_of_group (ctrApply_length _ _ _) (pad_length_mod m), hpad hm,
      Vector.length_toList]
    rfl
  | ctrDec =>
    refine .of_decrypt h fun m hm hn hal => .of_finishDecrypt s ?_
    rw [ctrBody_length _ _ hn hal, hm]

end Sys2Proof.Machine

/-! PROOFS. Decoding every 32-bit word: the ten words of the opcode map decode, and every other word is illegal and is
rejected by name (30_encoding.md R90 to R92, R96). -/

namespace Sys2Proof.Machine

/-- RSV is the word without its low four bits (R90). -/
theorem rsvField_eq_zero_iff {w : Word} : rsvField w = 0 ↔ w.toNat / 16 = 0 := by
  have hrsv : (rsvField w).toNat = w.toNat / 16 % 2 ^ 28 := by
    rw [rsvField, BitVec.extractLsb'_toNat, Nat.shiftRight_eq_div_pow]
  have hw : w.toNat < 2 ^ 32 := w.isLt
  have hmod : w.toNat / 16 % 2 ^ 28 = w.toNat / 16 := Nat.mod_eq_of_lt (by omega)
  rw [← BitVec.toNat_inj, hrsv, hmod]
  rfl

/-- OP is the low four bits of the word (R90). -/
theorem toNat_opField (w : Word) : (opField w).toNat = w.toNat % 16 := by
  rw [opField, BitVec.extractLsb'_toNat, Nat.shiftRight_zero]

/-- The opcode map has no row for 0x0 and for 0xB to 0xF (R91, R92). -/
theorem decodeOp_unassigned {op : BitVec 4} (h : op.toNat = 0 ∨ 0xB ≤ op.toNat) :
    decodeOp op = .error .reservedOpcode := by
  unfold decodeOp
  split
  case h_11 => rfl
  all_goals omega

/-- The opcode map has a row for each of 0x1 to 0xA (R91). -/
theorem decodeOp_assigned {op : BitVec 4} (hlo : 1 ≤ op.toNat) (hhi : op.toNat ≤ 10) : ∃ i, decodeOp op = .ok i := by
  unfold decodeOp
  interval_cases op.toNat <;> exact ⟨_, rfl⟩

/-- A word with RSV not 0 is rejected for its reserved bits, whatever its OP (R92). -/
theorem decode_rsv_ne_zero {w : Word} (h : w.toNat / 16 ≠ 0) : decode w = .error .reservedBits :=
  if_pos (mt rsvField_eq_zero_iff.mp h)

/-- A word with RSV = 0 decodes as its OP does (R91). -/
theorem decode_rsv_eq_zero {w : Word} (h : w.toNat / 16 = 0) : decode w = decodeOp (opField w) :=
  if_neg (not_not.mpr (rsvField_eq_zero_iff.mpr h))

/-- A word with RSV = 0 and an unassigned OP is rejected for its opcode (R92). -/
theorem decode_op_unassigned {w : Word} (hrsv : w.toNat / 16 = 0) (hop : w.toNat % 16 = 0 ∨ 0xB ≤ w.toNat % 16) :
    decode w = .error .reservedOpcode := by
  rw [← toNat_opField] at hop
  rw [decode_rsv_eq_zero hrsv, decodeOp_unassigned hop]

/-- `wellFormedWord` on the numbers of the two fields (R90, R91). -/
theorem wellFormedWord_iff {w : Word} :
    wellFormedWord w = true ↔ w.toNat / 16 = 0 ∧ 1 ≤ w.toNat % 16 ∧ w.toNat % 16 ≤ 10 := by
  simp only [wellFormedWord, rsvIsZero, opIsAssigned, Bool.and_eq_true, beq_iff_eq, decide_eq_true_eq]

/-- The words that are not well formed are R92's illegal words. -/
theorem not_wellFormedWord_iff {w : Word} :
    ¬ wellFormedWord w = true ↔ w.toNat / 16 ≠ 0 ∨ w.toNat % 16 = 0 ∨ 0xB ≤ w.toNat % 16 := by
  rw [wellFormedWord_iff]
  omega

/-- A well-formed word decodes to a command (R91). -/
theorem decode_wellFormed {w : Word} (h : wellFormedWord w = true) : ∃ i, decode w = .ok i := by
  obtain ⟨hrsv, hlo, hhi⟩ := wellFormedWord_iff.mp h
  rw [← toNat_opField] at hlo hhi
  rw [decode_rsv_eq_zero hrsv]
  exact decodeOp_assigned hlo hhi

/-- An illegal word decodes to no command (R92). -/
theorem decode_illegal {w : Word} (h : w.toNat / 16 ≠ 0 ∨ w.toNat % 16 = 0 ∨ 0xB ≤ w.toNat % 16) :
    ∃ e, decode w = .error e := by
  by_cases hrsv : w.toNat / 16 = 0
  · exact ⟨_, decode_op_unassigned hrsv (h.resolve_left (not_not.mpr hrsv))⟩
  · exact ⟨_, decode_rsv_ne_zero hrsv⟩

/-- The decoder recovers each command from its word (R91, R96). -/
@[simp] theorem decode_encode (i : Instr) : decode (encode i) = .ok i := by
  cases i <;> rfl

/-- The word of each command is well formed (R91). -/
@[simp] theorem wellFormedWord_encode (i : Instr) : wellFormedWord (encode i) = true := by
  cases i <;> rfl

/-- The well-formed words are those that decode (R91, R92). -/
theorem wellFormedWord_iff_decode {w : Word} : wellFormedWord w = true ↔ ∃ i, decode w = .ok i :=
  ⟨decode_wellFormed, fun ⟨i, hi⟩ => by rw [decode_eq_ok hi, wellFormedWord_encode]⟩

/-- Settles O27: `decode_eq_ok` and `decode_encode` are the two directions on commands; a word that decodes to an error
decodes to no command, so it is not well formed. -/
theorem decodeEncodeAgree : Obligations.DecodeEncodeAgree := by
  refine ⟨fun w i => ⟨decode_eq_ok, fun h => by rw [h, decode_encode]⟩, fun w => ⟨fun ⟨e, he⟩ => ?_, decode_illegal⟩⟩
  refine not_wellFormedWord_iff.mp fun hwf => ?_
  obtain ⟨i, hi⟩ := decode_wellFormed hwf
  cases he.symm.trans hi

/-- Settles O28: the decoder looks at RSV first, then at OP. -/
theorem illegalWordsAreNamed : Obligations.IllegalWordsAreNamed := fun _ =>
  ⟨decode_rsv_ne_zero, decode_op_unassigned, wellFormedWord_iff_decode⟩

/-- Settles O29: the eight words, evaluated. -/
theorem tableWordsDecode : Obligations.TableWordsDecode :=
  ⟨rfl, rfl, rfl, rfl, rfl, rfl, rfl, rfl⟩

end Sys2Proof.Machine

/-! PROOFS. The life of a command word: the port accepts it, and the engine's turn runs it or completes it with
IllegalCommand (30_encoding.md R92, R94 to R96). -/

namespace Sys2Proof.Machine

/-- While BUSY = 0 the port takes every word written to CMD (R94). -/
theorem busWrite_cmd_idle {s : State} (w : Word) (hb : s.status.busy = false) :
    busWrite 0x004 w s = some (acceptCommand w s) :=
  busWrite_idle w decodeOffset_cmd hb

/-- While BUSY = 1 the port takes no word written to CMD (R94). -/
theorem busWrite_cmd_busy {s : State} (w : Word) (hb : s.status.busy = true) : busWrite 0x004 w s = none :=
  (busWrite_eq_none_iff decodeOffset_cmd).mpr (.inl hb)

/-- Settles O23: a write of CMD is taken exactly while BUSY = 0. -/
theorem cmdWriteAccepts : Obligations.CmdWriteAccepts := fun _ w =>
  ⟨fun hb => hostWrite_taken (busWrite_cmd_idle w hb), fun hb => hostWrite_refused (busWrite_cmd_busy w hb)⟩

/-- The engine runs the command its pending word decodes to (R95, R96). -/
theorem engineStep_decoded {s : State} {w : Word} {i : Instr} (hp : s.pending = some w) (hd : decode w = .ok i) :
    engineStep s = exec i s := by
  simp only [engineStep, hp, hd]

/-- The engine completes an illegal word with IllegalCommand (R92). -/
theorem engineStep_illegal {s : State} {w : Word} {e : DecodeError} (hp : s.pending = some w)
    (hd : decode w = .error e) : engineStep s = .next (raiseErr .illegalCommand s) := by
  simp only [engineStep, hp, hd]

/-- Settles O30: the port takes every word, and `engineStep_illegal` is the completion. -/
theorem illegalWordCompletes : Obligations.IllegalWordCompletes := by
  intro s w hw
  obtain ⟨e, he⟩ := decode_illegal hw
  exact ⟨fun hb => ⟨acceptCommand w s, busWrite_cmd_idle w hb, rfl, rfl⟩, fun hp => engineStep_illegal hp he⟩

/-- A step at an engine turn is the engine's, on the state without that turn (R22, R95). -/
theorem step_engineTurn {s : State} {ts : List Turn} (h : s.schedule = .engine :: ts) :
    step s = engineStep (setSchedule ts s) :=
  step_turn h

/-- Settles O31: each kind of engine turn is `engineStep`, which has one equation per kind of `pending`. -/
theorem stepRunsDecodedCommand : Obligations.StepRunsDecodedCommand := by
  refine ⟨fun s w i hp hd => ⟨fun h => ?_, fun ts h => ?_⟩, fun s w e hp hd => ⟨fun h => ?_, fun ts h => ?_⟩,
    fun s hp => ⟨fun h => ?_, fun ts h => ?_⟩, fun s => ⟨step_engine, fun _ => step_engineTurn⟩⟩
  · exact (step_engine h).trans (engineStep_decoded hp hd)
  · exact (step_engineTurn h).trans (engineStep_decoded hp hd)
  · exact (step_engine h).trans (engineStep_illegal hp hd)
  · exact (step_engineTurn h).trans (engineStep_illegal hp hd)
  · exact (step_engine h).trans (engineStep_idle hp)
  · exact (step_engineTurn h).trans (engineStep_idle hp)

end Sys2Proof.Machine

/-! PROOFS. The padding codec on byte sequences: the padded length, the outcomes of `unpad`, and that `unpad` inverts
`pad` (41_padding_codec.md R110, R111, R115, R116). -/

namespace Sys2Proof.Machine

/-- An aligned message gets a full block of padding (R115). -/
theorem padLen_aligned {n : Nat} (h : n % 16 = 0) : padLen n = 16 := by
  unfold padLen blockBytes; omega

/-- Settles O5: the bounds of the pad length, and its value on an aligned message. -/
theorem padLengthBound : Obligations.PadLengthBound := by
  intro s
  have hpos := padLen_pos s.length
  have hle := padLen_le s.length
  refine ⟨pad_length_mod s, ?_, ?_, fun hal => ?_⟩
  · rw [pad_length]; omega
  · rw [pad_length]; omega
  · rw [pad, padBytes, padLen_aligned hal]

/-- A sequence with a last byte is not empty, and `unpad` reads that byte (R111). -/
theorem last_of_getElem? {s : List Byte} {last : Byte} (h : s[s.length - 1]? = some last) :
    s.length ≠ 0 ∧ s.getD (s.length - 1) 0 = last := by
  obtain ⟨hlt, -⟩ := List.getElem?_eq_some_iff.mp h
  exact ⟨by omega, by rw [List.getD_eq_getElem?_getD, h, Option.getD_some]⟩

/-- The trailer check of the hardened unpad, byte by byte (R111). -/
theorem all_drop_iff {s : List Byte} {k : Nat} {last : Byte} :
    (s.drop k).all (· == last) = true ↔ ∀ j, k ≤ j → j < s.length → s[j]? = some last := by
  simp only [List.all_eq_true, beq_iff_eq, List.mem_iff_getElem?, List.getElem?_drop]
  constructor
  · intro h j hk hj
    rw [List.getElem?_eq_getElem hj]
    exact congrArg some (h _ ⟨j - k, by rw [Nat.add_sub_cancel' hk, List.getElem?_eq_getElem hj]⟩)
  · rintro h b ⟨i, hi⟩
    obtain ⟨hlt, -⟩ := List.getElem?_eq_some_iff.mp hi
    exact Option.some.inj (hi.symm.trans (h (k + i) (Nat.le_add_right k i) hlt))

section Last

variable {s : List Byte} {last : Byte} (hlast : s[s.length - 1]? = some last)
include hlast

/-- A last byte 0, or above the length, is malformed (R111). -/
theorem unpad_last_malformed (strict : Bool) (hn : last.toNat = 0 ∨ s.length < last.toNat) :
    unpad s strict = malformed strict := by
  obtain ⟨hne, hget⟩ := last_of_getElem? hlast
  exact unpad_malformed strict hne (by rw [hget]; exact hn)

/-- A last byte `n` in `1 .. len(s)`: the hardened unpad rejects an unequal trailer, and `n` bytes are stripped
otherwise (R111). -/
theorem unpad_last_bounded (strict : Bool) (hpos : 1 ≤ last.toNat) (hle : last.toNat ≤ s.length) :
    unpad s strict =
      if strict = true ∧ ¬ (s.drop (s.length - last.toNat)).all (· == last) then .invalid
      else .ok (s.take (s.length - last.toNat)) := by
  obtain ⟨hne, hget⟩ := last_of_getElem? hlast
  rw [unpad_bounded strict hne (by rw [hget]; omega), hget]

/-- A trailer of equal bytes is stripped in both modes (R111). -/
theorem unpad_trailer_equal (strict : Bool) (hpos : 1 ≤ last.toNat) (hle : last.toNat ≤ s.length)
    (heq : ∀ j, s.length - last.toNat ≤ j → j < s.length → s[j]? = some last) :
    unpad s strict = .ok (s.take (s.length - last.toNat)) := by
  rw [unpad_last_bounded hlast strict hpos hle, if_neg fun h => h.2 (all_drop_iff.mpr heq)]

/-- The hardened unpad rejects a trailer with an unequal byte (R111). -/
theorem unpad_trailer_unequal (hpos : 1 ≤ last.toNat) (hle : last.toNat ≤ s.length) {j : Nat} {b : Byte}
    (hj : s.length - last.toNat ≤ j) (hb : s[j]? = some b) (hne : b ≠ last) : unpad s true = .invalid := by
  obtain ⟨hlt, -⟩ := List.getElem?_eq_some_iff.mp hb
  have hall : ¬ (s.drop (s.length - last.toNat)).all (· == last) = true := fun h =>
    hne (Option.some.inj (hb.symm.trans (all_drop_iff.mp h j hj hlt)))
  rw [unpad_last_bounded hlast true hpos hle, if_pos ⟨rfl, hall⟩]

end Last

/-- Settles O6: the last byte decides between `unpad_last_malformed` and `unpad_last_bounded`, and in strict mode the
trailer decides the rest. -/
theorem unpadOutcomes : Obligations.UnpadOutcomes := by
  refine ⟨⟨unpad_empty false rfl, unpad_empty true rfl⟩, fun s last hlast =>
    ⟨fun hn => ?_, fun hpos hle => ⟨?_, ?_, ?_⟩⟩⟩
  · exact ⟨unpad_last_malformed hlast false hn, unpad_last_malformed hlast true hn⟩
  · rw [unpad_last_bounded hlast false hpos hle, if_neg fun h => Bool.false_ne_true h.1]
  · exact unpad_trailer_equal hlast true hpos hle
  · exact fun j b => unpad_trailer_unequal hlast hpos hle

/-- Every byte of the trailer is the pad length (R110). -/
theorem padBytes_getElem? {n i : Nat} (h : i < padLen n) : (padBytes n)[i]? = some (BitVec.ofNat 8 (padLen n)) := by
  rw [padBytes, List.getElem?_replicate, if_pos h]

theorem pad_getElem?_trailer {s : List Byte} {j : Nat} (hlo : s.length ≤ j) (hhi : j < (pad s).length) :
    (pad s)[j]? = some (BitVec.ofNat 8 (padLen s.length)) := by
  rw [pad_length] at hhi
  rw [pad, List.getElem?_append_right hlo, padBytes_getElem? (by omega)]

/-- A padded message ends in as many equal bytes as its last byte says (R110, R116). -/
theorem pad_trailer (s : List Byte) :
    ∃ r : Byte, r.toNat = padLen s.length ∧ (pad s)[(pad s).length - 1]? = some r ∧ 1 ≤ r.toNat ∧
      r.toNat ≤ (pad s).length ∧ ∀ j, (pad s).length - r.toNat ≤ j → j < (pad s).length → (pad s)[j]? = some r := by
  have hpos := padLen_pos s.length
  have hr := padLen_toNat s.length
  have hlen := pad_length s
  exact ⟨BitVec.ofNat 8 (padLen s.length), hr, pad_getElem?_trailer (by omega) (by omega), by omega, by omega,
    fun j hj => pad_getElem?_trailer (by omega)⟩

/-- `unpad` of `pad` is the message, in both modes (R116). -/
theorem unpad_pad (s : List Byte) (strict : Bool) : unpad (pad s) strict = .ok s := by
  obtain ⟨r, hr, hlast, hpos, hle, heq⟩ := pad_trailer s
  rw [unpad_trailer_equal hlast strict hpos hle heq, hr, pad_length, Nat.add_sub_cancel, pad, List.take_left]

end Sys2Proof.Machine

/-! PROOFS. The commands PAD and UNPAD (41_padding_codec.md R113, R114, R116). -/

namespace Sys2Proof.Machine

/-- The padded message fits exactly when one more byte does: `MSG_CAP` is a multiple of 16 (R10, R113). -/
theorem add_padLen_le_msgCap_iff {n : Nat} : n + padLen n ≤ Config.msgCap ↔ n < Config.msgCap := by
  have hcap := msgCap_mod
  have hmod := add_padLen_mod n
  have hpos := padLen_pos n
  have hle := padLen_le n
  omega

/-- Settles O34: `execPad_fits` and `execPad_overflow`, told apart by LEN alone. -/
theorem padCommand : Obligations.PadCommand := by
  refine fun s => ⟨fun h => ?_, fun h => ?_⟩
  · exact execPad_fits (add_padLen_le_msgCap_iff.mpr h)
  · exact execPad_overflow (Nat.lt_of_not_le fun hfit => Nat.not_lt_of_le h (add_padLen_le_msgCap_iff.mp hfit))

/-- The end of UNPAD, by what its reading of the trailer gives (R114). -/
def unpadEnd (o : Unpadded Nat) (s : State) : State :=
  match o with
  | .ok kept => complete false { s with len := BitVec.ofNat 32 kept }
  | .fallback => complete true s
  | .invalid => raiseErr .invalidPadding s

/-- UNPAD with LEN above MSG_CAP raises CapacityExceeded (R114). -/
theorem execUnpad_overflow {s : State} (h : Config.msgCap < s.msgLen) :
    execUnpad s = .next (raiseErr .capacityExceeded s) :=
  if_pos h

/-- UNPAD ends as the outcome of its trailer says (R114). -/
theorem execUnpad_outcome {s : State} {o : Unpadded Nat} (h : s.msgLen ≤ Config.msgCap)
    (ho : unpadInPlace s.msg s.msgLen s.ctrl.strictUnpad = some o) : execUnpad s = .next (unpadEnd o s) := by
  simp only [execUnpad, gt_iff_lt, if_neg (Nat.not_lt_of_le h), ho]
  cases o <;> rfl

/-- UNPAD stops on an unspecified cell that it reads (U6). -/
theorem execUnpad_unspecified {s : State} (h : s.msgLen ≤ Config.msgCap)
    (ho : unpadInPlace s.msg s.msgLen s.ctrl.strictUnpad = none) : execUnpad s = .fault .unspecifiedCommandRead := by
  simp only [execUnpad, gt_iff_lt, if_neg (Nat.not_lt_of_le h), ho]

/-- Settles O35: on a specified message the trailer's outcome is that of `unpad`. -/
theorem unpadCommand : Obligations.UnpadCommand := by
  refine ⟨fun s m hcap hm => ?_, fun s => execUnpad_overflow⟩
  refine (execUnpad_outcome hcap (unpadInPlace_eq _ hm)).trans ?_
  cases unpad m s.ctrl.strictUnpad <;> rfl

section Trailer

variable {m : Memory} {len : Nat}

/-- UNPAD reads the last byte of a message that is not empty (R111). -/
theorem unpadInPlace_last_unspecified (strict : Bool) (hne : 0 < len) (hlast : m.read (len - 1) = none) :
    unpadInPlace m len strict = none := by
  simp only [unpadInPlace, if_neg (Nat.ne_of_gt hne), hlast]

variable {last : Byte} (hne : 0 < len) (hlast : m.read (len - 1) = some last)
include hne hlast

/-- No other cell is read when the last byte fails the length bound (R111). -/
theorem unpadInPlace_malformed (strict : Bool) (hn : last.toNat = 0 ∨ len < last.toNat) :
    unpadInPlace m len strict = some (malformed strict) := by
  simp only [unpadInPlace, if_neg (Nat.ne_of_gt hne), hlast]
  exact if_pos hn

/-- The lenient unpad reads no other cell (R111). -/
theorem unpadInPlace_lenient (hpos : 1 ≤ last.toNat) (hle : last.toNat ≤ len) :
    unpadInPlace m len false = some (.ok (len - last.toNat)) := by
  have hbound : ¬ (last.toNat = 0 ∨ last.toNat > len) := by omega
  simp only [unpadInPlace, if_neg (Nat.ne_of_gt hne), hlast, if_neg hbound, Bool.false_eq_true, if_false]

/-- The hardened unpad reads the trailer, and then looks for an unequal byte (R111). -/
theorem unpadInPlace_strict (hpos : 1 ≤ last.toNat) (hle : last.toNat ≤ len) :
    unpadInPlace m len true = (m.readBytes (len - last.toNat) last.toNat).map fun t =>
      if t.all (· == last) then .ok (len - last.toNat) else .invalid := by
  have hbound : ¬ (last.toNat = 0 ∨ last.toNat > len) := by omega
  simp only [unpadInPlace, if_neg (Nat.ne_of_gt hne), hlast, if_neg hbound, if_true]
  cases m.readBytes (len - last.toNat) last.toNat with
  | none => rfl
  | some t => exact (apply_ite some _ _ _).symm

/-- The trailer is stripped in lenient mode, and in strict mode when its cells are all equal (R111). -/
theorem unpadInPlace_ok {strict : Bool} (hpos : 1 ≤ last.toNat) (hle : last.toNat ≤ len)
    (h : strict = false ∨ ∀ j < last.toNat, m.read (len - last.toNat + j) = some last) :
    unpadInPlace m len strict = some (.ok (len - last.toNat)) := by
  cases strict with
  | false => exact unpadInPlace_lenient hne hlast hpos hle
  | true =>
    have hread : m.readBytes (len - last.toNat) last.toNat = some (List.replicate last.toNat last) := by
      refine (Memory.readBytes_eq_some _ _ _ _).mpr ⟨List.length_replicate, fun j hj => ?_⟩
      rw [h.resolve_left Bool.true_eq_false.mp j hj, List.getElem?_replicate, if_pos hj]
    have hall : (List.replicate last.toNat last).all (· == last) = true := by simp
    rw [unpadInPlace_strict hne hlast hpos hle, hread, Option.map_some, if_pos hall]

/-- A specified trailer with an unequal byte is rejected in strict mode (R111). -/
theorem unpadInPlace_invalid (hpos : 1 ≤ last.toNat) (hle : last.toNat ≤ len) {t : List Byte}
    (ht : m.readBytes (len - last.toNat) last.toNat = some t) (hb : ∃ b ∈ t, b ≠ last) :
    unpadInPlace m len true = some .invalid := by
  have hall : ¬ t.all (· == last) = true := by simpa using hb
  rw [unpadInPlace_strict hne hlast hpos hle, ht, Option.map_some, if_neg hall]

/-- The hardened unpad stops on a trailer with an unspecified cell (R111, U6). -/
theorem unpadInPlace_trailer_unspecified (hpos : 1 ≤ last.toNat) (hle : last.toNat ≤ len)
    (ht : m.readBytes (len - last.toNat) last.toNat = none) : unpadInPlace m len true = none := by
  rw [unpadInPlace_strict hne hlast hpos hle, ht, Option.map_none]

end Trailer

/-- Settles O36: each clause is one outcome of `unpadInPlace`, and the end of UNPAD on it. -/
theorem unpadReadsOnlyTrailer : Obligations.UnpadReadsOnlyTrailer := by
  intro s hcap hne
  refine ⟨fun hlast => ?_, fun n hlast => ⟨fun hn => ⟨fun hmode => ?_, fun hmode => ?_⟩,
    fun hpos hle => ⟨fun heq => ?_, fun hmode t ht hb => ?_, fun hmode ht => ?_⟩⟩⟩
  · exact execUnpad_unspecified hcap (unpadInPlace_last_unspecified _ hne hlast)
  · exact execUnpad_outcome (o := .fallback) hcap (hmode ▸ unpadInPlace_malformed hne hlast false hn)
  · exact execUnpad_outcome (o := .invalid) hcap (hmode ▸ unpadInPlace_malformed hne hlast true hn)
  · exact execUnpad_outcome hcap (unpadInPlace_ok hne hlast hpos hle heq)
  · exact execUnpad_outcome hcap (hmode ▸ unpadInPlace_invalid hne hlast hpos hle ht hb)
  · exact execUnpad_unspecified hcap (hmode ▸ unpadInPlace_trailer_unspecified hne hlast hpos hle ht)

/-- UNPAD strips the trailer that PAD has stored, in both modes and whatever cells the message has (R116). -/
theorem unpadInPlace_writeBytes_padBytes (m : Memory) (len : Nat) (strict : Bool) :
    unpadInPlace (m.writeBytes len (padBytes len)) (len + padLen len) strict = some (.ok len) := by
  have hpos := padLen_pos len
  have hr := padLen_toNat len
  have hkept : len + padLen len - (BitVec.ofNat 8 (padLen len)).toNat = len := by omega
  have htrailer : ∀ j < padLen len,
      (m.writeBytes len (padBytes len)).read (len + j) = some (BitVec.ofNat 8 (padLen len)) := by
    intro j hj
    rw [Memory.read_writeBytes, if_pos (by rw [padBytes_length]; omega), Nat.add_sub_cancel_left, padBytes_getElem? hj]
  have hlast : (m.writeBytes len (padBytes len)).read (len + padLen len - 1) = some (BitVec.ofNat 8 (padLen len)) := by
    rw [Nat.add_sub_assoc hpos]
    exact htrailer _ (by omega)
  rw [unpadInPlace_ok (by omega) hlast (by omega) (by omega) (.inr (by rw [hkept, hr]; exact htrailer)), hkept]

/-- A PAD and then an UNPAD under any CTRL keep LEN and the cells of the message (R116): PAD stores after the message,
UNPAD stores nothing. -/
theorem execPad_execUnpad {s : State} (c : Ctrl) (h : s.msgLen < Config.msgCap) :
    ∃ t u, execPad s = .next t ∧ execUnpad { t with ctrl := c } = .next u ∧ u.len = s.len ∧
      ∀ a < s.msgLen, u.msg.read a = s.msg.read a := by
  have hfit := add_padLen_le_msgCap_iff.mpr h
  obtain ⟨t, ht, htmsg, htlen⟩ : ∃ t, execPad s = .next t ∧ t.msg = s.msg.writeBytes s.msgLen (padBytes s.msgLen) ∧
      t.msgLen = s.msgLen + padLen s.msgLen := ⟨_, execPad_fits hfit, rfl, toNat_ofNat_of_le_msgCap hfit⟩
  have hout : unpadInPlace t.msg t.msgLen c.strictUnpad = some (.ok s.msgLen) := by
    rw [htmsg, htlen]
    exact unpadInPlace_writeBytes_padBytes s.msg s.msgLen c.strictUnpad
  have hu := execUnpad_outcome (s := { t with ctrl := c }) (htlen.trans_le hfit) hout
  refine ⟨t, _, ht, hu, BitVec.ofNat_toNat _ _, fun a ha => ?_⟩
  rw [execUnpad_msg hu, htmsg, Memory.read_writeBytes_outside _ _ (.inl ha)]

/-- Settles O7: `unpad_pad` and `pad_trailer` on sequences, `execPad_execUnpad` on the commands. -/
theorem unpadInvertsPad : Obligations.UnpadInvertsPad := by
  refine ⟨unpad_pad, fun s => ?_, fun s c h => execPad_execUnpad c h⟩
  obtain ⟨r, -, htrailer⟩ := pad_trailer s
  exact ⟨r, htrailer⟩

end Sys2Proof.Machine

/-! PROOFS. The block XOR (42_block_xor.md): the laws of `xor16` lane by lane (R132), and the command (R131). -/

namespace Sys2Proof.Machine

/-- An equation of `xor16` is an equation of each of its 16 lanes: nothing carries between them (R130). -/
theorem xor16_eq_of_getElem {a b x : Block} (h : ∀ (i : Nat) (hi : i < 16), a[i] ^^^ b[i] = x[i]) : xor16 a b = x :=
  Vector.ext fun i hi => (xor16_getElem a b i hi).trans (h i hi)

theorem xor16_comm (a b : Block) : xor16 a b = xor16 b a :=
  xor16_eq_of_getElem fun i hi => by rw [xor16_getElem, BitVec.xor_comm]

theorem xor16_assoc (a b c : Block) : xor16 (xor16 a b) c = xor16 a (xor16 b c) :=
  xor16_eq_of_getElem fun i hi => by simp only [xor16_getElem, BitVec.xor_assoc]

@[simp] theorem xor16_self (a : Block) : xor16 a a = Block.zero :=
  xor16_eq_of_getElem fun i hi => by rw [BitVec.xor_self, Vector.getElem_replicate]; rfl

@[simp] theorem xor16_zero (a : Block) : xor16 a Block.zero = a :=
  xor16_eq_of_getElem fun i hi => by rw [Vector.getElem_replicate]; exact BitVec.xor_zero

@[simp] theorem xor16_xor16_cancel_right (a b : Block) : xor16 (xor16 a b) b = a := by
  rw [xor16_assoc, xor16_self, xor16_zero]

/-- Settles O8: commutativity, associativity, self-inverse and zero are laws of each lane, and cancellation follows. -/
theorem xorLaws : Obligations.XorLaws := fun a b c =>
  ⟨xor16_comm a b, xor16_xor16_cancel_right a b, xor16_self a, xor16_zero a, xor16_assoc a b c⟩

/-- The command is `xor16` and a completion; it looks at neither LEN nor MSG (R131). -/
theorem exec_xor (s : State) : exec .xor s = .next (complete false { s with res := xor16 s.opa s.opb }) := rfl

/-- Settles O37: `complete false` writes the STATUS and the pending command of the statement; the lanes are those of
`xor16_getElem`. -/
theorem xorCommand : Obligations.XorCommand :=
  ⟨exec_xor, fun a b i => xor16_getElem a b i i.isLt⟩

end Sys2Proof.Machine

/-! PROOFS. The counter incrementer (43_counter_incrementer.md): the carry loop of `inc16` is +1 modulo `2^128` (R140),
with the laws that follow from it (R142), and the command (R141). -/

namespace Sys2Proof.Machine

theorem be_injective : Function.Injective be := Function.LeftInverse.injective beInv_be

theorem be_lt_two_pow (x : Block) : be x < 2 ^ 128 := (be_lt x).trans_eq (by norm_num)

/-- `be(inc16(c)) = (be(c) + 1) mod 2^128` (R140): the whole carry loop, from byte 15 on, adds `256^0`. -/
theorem be_inc16 (c : Block) : be (inc16 c) = (be c + 1) % 2 ^ 128 := by
  obtain ⟨q, hq⟩ := be_incFrom blockBytes (Nat.le_refl _) c
  have hsum : be (inc16 c) + 2 ^ 128 * q = be c + 1 := by simpa [inc16, blockBytes] using hq
  rw [← hsum, Nat.add_mul_mod_self_left, Nat.mod_eq_of_lt (be_lt_two_pow _)]

/-- `k` increments add `k` modulo `2^128` (R142). -/
theorem be_inc16Iter (k : Nat) (c : Block) : be (inc16Iter k c) = (be c + k) % 2 ^ 128 := by
  induction k generalizing c with
  | zero => rw [inc16Iter, Nat.add_zero, Nat.mod_eq_of_lt (be_lt_two_pow c)]
  | succ k ih => rw [inc16Iter, ih, be_inc16, Nat.mod_add_mod, Nat.add_assoc, Nat.add_comm 1 k]

/-- The integer form of the increments is their byte form (R142). -/
theorem inc16Iter_eq_beInv (k : Nat) (c : Block) : inc16Iter k c = beInv ((be c + k) % 2 ^ 128) := by
  rw [← be_inc16Iter, beInv_be]

/-- Any multiple of `2^128` increments gives the block back (R142). -/
theorem inc16Iter_eq_self {k : Nat} (h : 2 ^ 128 ∣ k) (c : Block) : inc16Iter k c = c := by
  obtain ⟨m, rfl⟩ := h
  apply be_injective
  rw [be_inc16Iter, Nat.add_mul_mod_self_left, Nat.mod_eq_of_lt (be_lt_two_pow c)]

theorem inc16_injective : Function.Injective inc16 := by
  intro c d h
  have hmod : (be c + 1) % 2 ^ 128 = (be d + 1) % 2 ^ 128 := by rw [← be_inc16, ← be_inc16, h]
  have hc := be_lt_two_pow c
  have hd := be_lt_two_pow d
  exact be_injective (by omega)

/-- A block is the increment of the block whose value is one less, or `2^128 - 1` for the zero block (R142). -/
theorem inc16_surjective : Function.Surjective inc16 := by
  intro d
  have hd := be_lt_two_pow d
  refine ⟨beInv ((be d + (2 ^ 128 - 1)) % 2 ^ 128), be_injective ?_⟩
  rw [be_inc16, be_beInv (Nat.mod_lt _ (by decide))]
  omega

/-- All bytes `0xFF` carry to the end, and the carry out of byte 0 is dropped (R142). -/
theorem inc16_all_ones : inc16 (Vector.replicate 16 0xFF#8) = Block.zero := by decide

/-- Settles O9: `be_inc16` ties the carry loop to the integer form, and the other laws are arithmetic modulo `2^128`. -/
theorem incIsBigEndianPlusOne : Obligations.IncIsBigEndianPlusOne :=
  ⟨fun c => ⟨inc16Iter_eq_beInv 1 c, be_inc16 c⟩, ⟨inc16_injective, inc16_surjective⟩, inc16Iter_eq_beInv,
    inc16Iter_eq_self (Nat.dvd_refl _), inc16_all_ones⟩

/-- The command is `inc16` and a completion; it looks at neither LEN nor MSG (R141). -/
theorem exec_inc (s : State) : exec .inc s = .next (complete false { s with res := inc16 s.opa }) := rfl

/-- Settles O38: `complete false` writes the STATUS and the pending command of the statement. -/
theorem incCommand : Obligations.IncCommand := exec_inc

end Sys2Proof.Machine

/-! PROOFS. What the mode commands share: how a command ends on each operand it fetches (60_exceptions.md R185), what the
buffer holds after a store, and that a padded message, once decrypted, is restored (41_padding_codec.md R116). -/

namespace Sys2Proof.Machine

theorem runOn_bytes {x : Operand} {bs : List Byte} (h : x = .bytes bs) (s : State) (k : List Byte → State) :
    runOn x s k = .next (k bs) := by rw [h]; rfl

theorem runOn_err {x : Operand} {c : ErrCode} (h : x = .err c) (s : State) (k : List Byte → State) :
    runOn x s k = .next (raiseErr c s) := by rw [h]; rfl

/-- A decrypt command with LEN above MSG_CAP raises CapacityExceeded (R185, check 2). -/
theorem cipherInput_overflow {n : Nat} {s : State} (h : Config.msgCap < s.msgLen) :
    cipherInput n s = .err .capacityExceeded :=
  if_pos h

/-- A decrypt command whose LEN is no multiple of 16 raises InvalidLength, after the checks before it (R185, check 4). -/
theorem cipherInput_unaligned {n : Nat} {s : State} (hcap : s.msgLen ≤ Config.msgCap) (hn : n ≤ s.msgLen)
    (h : s.msgLen % 16 ≠ 0) : cipherInput n s = .err .invalidLength := by
  unfold cipherInput
  rw [if_neg (Nat.not_lt_of_le hcap), if_neg (Nat.not_lt_of_le hn), if_pos h]

/-- LEN is written with its own value when a message as long as before is stored. -/
theorem ofNat_eq_len {n : Nat} {s : State} (h : n = s.msgLen) : BitVec.ofNat 32 n = s.len := by
  rw [h]
  exact BitVec.ofNat_toNat _ _

/-- Fallback keeps LEN when the decrypted text is as long as the ciphertext (R151, R161). -/
theorem finishDecrypt_fallback_keeps_len {p : List Byte} {s : State} (h : unpad p s.ctrl.strictUnpad = .fallback)
    (hlen : p.length = s.msgLen) :
    finishDecrypt p s = complete true { s with msg := s.msg.writeBytes 0 p } := by
  rw [finishDecrypt_fallback h, storeMessage, ofNat_eq_len hlen]

/-- The buffer holds as much of the bytes stored from offset 0 as LEN is set to (R15, R153). -/
theorem storeMessage_holds {bs : List Byte} {n : Nat} (s : State) (hn : n ≤ bs.length) (hcap : n ≤ Config.msgCap) :
    (storeMessage bs n s).holds (bs.take n) := by
  have hread := Memory.readBytes_writeBytes_slice s.msg 0 (bs := bs) (k := 0) (n := n) (by omega)
  unfold State.holds State.msgLen
  rw [storeMessage_len, toNat_ofNat_of_le_msgCap hcap]
  exact hread

/-- A decrypt command whose decrypted text is a padded message restores the message, in both modes (R116). -/
theorem finishDecrypt_pad {m : List Byte} (s : State) (h : m.length ≤ Config.msgCap) :
    (finishDecrypt (pad m) s).len = BitVec.ofNat 32 m.length ∧ (finishDecrypt (pad m) s).holds m := by
  have hstore : (storeMessage (pad m) m.length s).holds ((pad m).take m.length) :=
    storeMessage_holds s (by rw [pad_length]; omega) h
  rw [pad, List.take_left] at hstore
  rw [finishDecrypt_ok (unpad_pad m _)]
  exact ⟨rfl, hstore⟩

end Sys2Proof.Machine

/-! PROOFS. The ECB mode engine (44_ecb_mode_engine.md R150 to R153). -/

namespace Sys2Proof.Machine

theorem ecbEncrypt_getElem? (k : Block) {bs : List Block} {i : Nat} {b : Block} (h : bs[i]? = some b) :
    (ecbEncrypt k bs)[i]? = some (Config.E k b) := by
  rw [ecbEncrypt, List.getElem?_map, h, Option.map_some]

/-- Block by block, ECB_DEC undoes ECB_ENC (R8). -/
theorem ecbDecrypt_ecbEncrypt (k : Block) (bs : List Block) : ecbDecrypt k (ecbEncrypt k bs) = bs := by
  simp only [ecbDecrypt, ecbEncrypt, List.map_map, Function.comp_def, Config.D_E, List.map_id']

/-- ECB_ENC of a specified message that fits (R150). -/
theorem execEcbEnc_fits {s : State} {m : List Byte} (h : s.msgLen < Config.msgCap) (hm : s.holds m) :
    execEcbEnc s = .next
      (complete false (storeMessage (ungroup (ecbEncrypt s.key (group (pad m)))) (pad m).length s)) :=
  have hfit : s.msgLen + padLen s.msgLen ≤ Config.msgCap := add_padLen_le_msgCap_iff.mpr h
  runOn_bytes (paddedInput_bytes hm hfit) s _

/-- ECB_DEC of a specified message whose length passes the checks (R151). -/
theorem execEcbDec_aligned {s : State} {c : List Byte} (hcap : s.msgLen ≤ Config.msgCap) (hal : s.msgLen % 16 = 0)
    (hc : s.holds c) : execEcbDec s = .next (finishDecrypt (ungroup (ecbDecrypt s.key (group c))) s) :=
  runOn_bytes (cipherInput_bytes hc hcap (Nat.zero_le _) hal) s _

/-- Settles O39: the padded message fits exactly when LEN is below MSG_CAP, and the check precedes the reading. -/
theorem ecbEncCommand : Obligations.EcbEncCommand := by
  refine ⟨fun s m h hm => execEcbEnc_fits h hm, fun s h => ?_⟩
  have hover : Config.msgCap < s.msgLen + padLen s.msgLen := by
    have := padLen_pos s.msgLen
    omega
  exact runOn_err (paddedInput_err hover) s _

/-- Settles O40: the decrypted text is as long as the ciphertext, and `unpad` of it decides between the three ends. -/
theorem ecbDecCommand : Obligations.EcbDecCommand := by
  refine ⟨fun s c p hcap hal hc hp => ?_, fun s h => runOn_err (cipherInput_overflow h) s _,
    fun s hcap h => runOn_err (cipherInput_unaligned hcap (Nat.zero_le _) h) s _⟩
  have hclen : c.length = s.msgLen := Memory.readBytes_length hc
  have hplen : p.length = s.msgLen := by
    rw [hp, ungroup_length_of_group (List.length_map _) (hclen ▸ hal), hclen]
  have hexec : exec .ecbDec s = .next (finishDecrypt p s) := hp ▸ execEcbDec_aligned hcap hal hc
  rw [hexec]
  cases hu : unpad p s.ctrl.strictUnpad with
  | ok t => exact congrArg _ (finishDecrypt_ok hu)
  | fallback => exact congrArg _ (finishDecrypt_fallback_keeps_len hu hplen)
  | invalid => exact congrArg _ (finishDecrypt_invalid hu)

/-- Settles O41: block `i` of what ECB_ENC stores is the image of block `i` alone. -/
theorem ecbBlocksAreIndependent : Obligations.EcbBlocksAreIndependent := by
  intro s m h hm
  obtain ⟨-, hread⟩ := ungroupInvertsGroup
  have hblock : ∀ i < (pad m).length / 16,
      (s.msg.writeBytes 0 (ungroup (ecbEncrypt s.key (group (pad m))))).readBytes (16 * i) 16 =
        some (Config.E s.key (blockOfBytes (((pad m).drop (16 * i)).take 16))).toList := fun i hi =>
    hread _ _ i _ (ecbEncrypt_getElem? s.key (group_getElem? hi))
  exact ⟨_, execEcbEnc_fits h hm, hblock, fun i j hi hj heq =>
    (hblock i hi).trans (heq ▸ (hblock j hj).symm)⟩

/-- What ECB_DEC finds in the buffer after an ECB_ENC under the same KEY (R153). -/
theorem execEcbEnc_stores {s : State} {m : List Byte} (h : s.msgLen < Config.msgCap) (hm : s.holds m) :
    ∃ t, execEcbEnc s = .next t ∧ t.key = s.key ∧ t.msgLen = (pad m).length ∧ (pad m).length ≤ Config.msgCap ∧
      t.holds (ungroup (ecbEncrypt s.key (group (pad m)))) := by
  have hcap : (pad m).length ≤ Config.msgCap := by
    rw [pad_length, Memory.readBytes_length hm]
    exact add_padLen_le_msgCap_iff.mpr h
  have hlen : (ungroup (ecbEncrypt s.key (group (pad m)))).length = (pad m).length :=
    ungroup_length_of_group (ecbEncrypt_length _ _) (pad_length_mod m)
  have hstore := storeMessage_holds s hlen.ge hcap
  rw [List.take_of_length_le hlen.le] at hstore
  exact ⟨_, execEcbEnc_fits h hm, rfl, toNat_ofNat_of_le_msgCap hcap, hcap, hstore⟩

/-- Settles O42: ECB_DEC decrypts what ECB_ENC has stored to the padded message, and `unpad` inverts `pad`. -/
theorem ecbRoundTrip : Obligations.EcbRoundTrip := by
  intro s m c h hm
  have hmlen : m.length = s.msgLen := Memory.readBytes_length hm
  have hal := pad_length_mod m
  obtain ⟨t, ht, htkey, htlen, hcap, hholds⟩ := execEcbEnc_stores h hm
  have hu := execEcbDec_aligned (s := { t with ctrl := c }) (htlen.trans_le hcap) (htlen ▸ hal) hholds
  have hplain : ungroup (ecbDecrypt t.key (group (ungroup (ecbEncrypt s.key (group (pad m)))))) = pad m := by
    rw [htkey, group_ungroup, ecbDecrypt_ecbEncrypt, ungroup_group hal]
  rw [hplain] at hu
  obtain ⟨hlen, hrestored⟩ := finishDecrypt_pad { t with ctrl := c } (hmlen.trans_le h.le)
  exact ⟨t, _, ht, hu, hlen.trans (ofNat_eq_len hmlen), hrestored⟩

end Sys2Proof.Machine

/-! PROOFS. The CBC mode engine (45_cbc_mode_engine.md R160 to R164). -/

namespace Sys2Proof.Machine

theorem xor16_eq_left_iff {a b : Block} : xor16 a b = a ↔ b = Block.zero := by
  constructor
  · intro h
    rw [← xor16_xor16_cancel_right b a, xor16_comm b a, h, xor16_self]
  · rintro rfl
    exact xor16_zero a

/-- The first block of the chain is combined with the IV (R160). -/
theorem cbcEncrypt_getElem?_zero (k prev : Block) (bs : List Block) :
    (cbcEncrypt k prev bs)[0]? = bs[0]?.map fun x => Config.E k (xor16 x prev) := by
  cases bs <;> rfl

/-- Every later block of the chain is combined with the ciphertext block before it (R160). -/
theorem cbcEncrypt_getElem?_succ {k prev c : Block} {bs : List Block} {i : Nat}
    (h : (cbcEncrypt k prev bs)[i]? = some c) :
    (cbcEncrypt k prev bs)[i + 1]? = bs[i + 1]?.map fun x => Config.E k (xor16 x c) := by
  induction bs generalizing prev i with
  | nil => rfl
  | cons b bs ih =>
    cases i with
    | zero =>
      obtain rfl : Config.E k (xor16 b prev) = c := Option.some.inj h
      exact cbcEncrypt_getElem?_zero k _ bs
    | succ i => exact ih h

/-- The first block is unchained with the IV (R161). -/
theorem cbcDecrypt_getElem?_zero (k prev : Block) (cs : List Block) :
    (cbcDecrypt k prev cs)[0]? = cs[0]?.map fun x => xor16 (Config.D k x) prev := by
  cases cs <;> rfl

/-- Every later block is unchained with the ciphertext block before it, and depends on nothing else (R161). -/
theorem cbcDecrypt_getElem?_succ (k prev : Block) {d : Block} {cs : List Block} {i : Nat} (h : cs[i]? = some d) :
    (cbcDecrypt k prev cs)[i + 1]? = cs[i + 1]?.map fun x => xor16 (Config.D k x) d := by
  induction cs generalizing prev i with
  | nil => rfl
  | cons c cs ih =>
    cases i with
    | zero =>
      obtain rfl : c = d := Option.some.inj h
      exact cbcDecrypt_getElem?_zero k c cs
    | succ i => exact ih c h

/-- Unchaining undoes chaining under the same KEY and IV: the ciphertext block before is the one combined in (R164). -/
theorem cbcDecrypt_cbcEncrypt (k prev : Block) (bs : List Block) :
    cbcDecrypt k prev (cbcEncrypt k prev bs) = bs := by
  induction bs generalizing prev with
  | nil => rfl
  | cons b bs ih => rw [cbcEncrypt, cbcDecrypt, Config.D_E, xor16_xor16_cancel_right, ih]

/-- Settles O10: `E` is injective for each key, and only the zero block leaves `x` as it was. -/
theorem cbcEqualBlocksDiffer : Obligations.CbcEqualBlocksDiffer := by
  intro k x rest
  have hchain : cbcEncrypt k Block.zero (x :: x :: rest) =
      Config.E k x :: Config.E k (xor16 x (Config.E k x)) ::
        cbcEncrypt k (Config.E k (xor16 x (Config.E k x))) rest := by
    rw [cbcEncrypt, xor16_zero, cbcEncrypt]
  exact ⟨_, _, _, hchain, rfl, rfl, (Config.cipher k).apply_eq_iff_eq.not, xor16_eq_left_iff.not⟩

/-- Settles O11: the IV stands in the first block only, where the right IV cancels. -/
theorem cbcWrongIvTouchesFirstBlock : Obligations.CbcWrongIvTouchesFirstBlock := by
  intro k iv iv' cs i
  cases cs with
  | nil => exact ⟨rfl, rfl⟩
  | cons c cs =>
    have hswap : xor16 (Config.D k c) iv' = xor16 (xor16 (Config.D k c) iv) (xor16 iv iv') := by
      rw [← xor16_assoc, xor16_xor16_cancel_right]
    rw [cbcDecrypt, cbcDecrypt, List.getElem?_cons_succ, List.getElem?_cons_succ]
    exact ⟨congrArg some hswap, rfl⟩

/-- A message of MSG_CAP bytes or more does not fit once it is padded (R185, checks 2 and 5). -/
theorem paddedInput_full {s : State} (h : Config.msgCap ≤ s.msgLen) : paddedInput 0 s = .err .capacityExceeded :=
  paddedInput_err (Nat.lt_of_not_le fun hfit => absurd (add_padLen_le_msgCap_iff.mp hfit) (Nat.not_lt_of_le h))

/-- CBC_ENC of a specified message that fits (R160). -/
theorem execCbcEnc_fits {s : State} {m : List Byte} (h : s.msgLen < Config.msgCap) (hm : s.holds m) :
    execCbcEnc s = .next
      (complete false (storeMessage (ungroup (cbcEncrypt s.key s.iv (group (pad m)))) (pad m).length s)) :=
  have hfit : s.msgLen + padLen s.msgLen ≤ Config.msgCap := add_padLen_le_msgCap_iff.mpr h
  runOn_bytes (paddedInput_bytes hm hfit) s _

/-- CBC_DEC of a specified message whose length passes the checks (R161). -/
theorem execCbcDec_aligned {s : State} {c : List Byte} (hcap : s.msgLen ≤ Config.msgCap) (hal : s.msgLen % 16 = 0)
    (hc : s.holds c) : execCbcDec s = .next (finishDecrypt (ungroup (cbcDecrypt s.key s.iv (group c))) s) :=
  runOn_bytes (cipherInput_bytes hc hcap (Nat.zero_le _) hal) s _

/-- Settles O43: the two ends of the fetch, and the chain by its first block and its step. -/
theorem cbcEncCommand : Obligations.CbcEncCommand :=
  ⟨fun _ _ h hm => execCbcEnc_fits h hm, fun s h => runOn_err (paddedInput_full h) s _,
    fun k prev b _ bs _ => ⟨cbcEncrypt_getElem?_zero k prev (b :: bs), cbcEncrypt_getElem?_succ⟩⟩

/-- Settles O44: the unchained text is as long as the ciphertext, and `unpad` of it decides between the three ends. -/
theorem cbcDecCommand : Obligations.CbcDecCommand := by
  refine ⟨fun s c p hcap hal hc hp => ?_, fun s h => runOn_err (cipherInput_overflow h) s _,
    fun s hcap h => runOn_err (cipherInput_unaligned hcap (Nat.zero_le _) h) s _,
    fun k prev c d cs i => ⟨cbcDecrypt_getElem?_zero k prev (c :: cs), cbcDecrypt_getElem?_succ k prev⟩⟩
  have hclen : c.length = s.msgLen := Memory.readBytes_length hc
  have hplen : p.length = s.msgLen := by
    rw [hp, ungroup_length_of_group (cbcDecrypt_length _ _ _) (hclen ▸ hal), hclen]
  refine (execCbcDec_aligned hcap hal hc).trans (congrArg _ ?_)
  rw [← hp]
  cases hu : unpad p s.ctrl.strictUnpad with
  | ok t => exact finishDecrypt_ok hu
  | fallback => exact finishDecrypt_fallback_keeps_len hu hplen
  | invalid => exact finishDecrypt_invalid hu

/-- An encrypt command whose output is as long as the padded message leaves that output as the message (R153, R164). -/
theorem storeMessage_holds_padded {s : State} {m : List Byte} {bs : List Block} (h : s.msgLen < Config.msgCap)
    (hm : s.holds m) (hbs : bs.length = (group (pad m)).length) :
    (pad m).length ≤ Config.msgCap ∧ (storeMessage (ungroup bs) (pad m).length s).msgLen = (pad m).length ∧
      (storeMessage (ungroup bs) (pad m).length s).holds (ungroup bs) := by
  have hcap : (pad m).length ≤ Config.msgCap := by
    rw [pad_length, Memory.readBytes_length hm]
    exact add_padLen_le_msgCap_iff.mpr h
  have hlen := ungroup_length_of_group hbs (pad_length_mod m)
  have hstore := storeMessage_holds s hlen.ge hcap
  rw [List.take_of_length_le hlen.le] at hstore
  exact ⟨hcap, toNat_ofNat_of_le_msgCap hcap, hstore⟩

/-- Settles O45: CBC_DEC finds the chain of the padded message, unchains it under the same KEY and IV, and `unpad`
inverts `pad`. -/
theorem cbcRoundTrip : Obligations.CbcRoundTrip := by
  intro s m c h hm
  set bs := cbcEncrypt s.key s.iv (group (pad m)) with hbs
  set t := complete false (storeMessage (ungroup bs) (pad m).length s)
  have hmlen : m.length = s.msgLen := Memory.readBytes_length hm
  obtain ⟨hcap, htlen, hholds⟩ := storeMessage_holds_padded h hm (cbcEncrypt_length s.key s.iv _)
  have hplain : ungroup (cbcDecrypt s.key s.iv (group (ungroup bs))) = pad m := by
    rw [group_ungroup, hbs, cbcDecrypt_cbcEncrypt, ungroup_group (pad_length_mod m)]
  have hu : execCbcDec { t with ctrl := c } = .next (finishDecrypt (pad m) { t with ctrl := c }) :=
    hplain ▸ execCbcDec_aligned (s := { t with ctrl := c }) (htlen.trans_le hcap) (htlen ▸ pad_length_mod m) hholds
  obtain ⟨hlen, hrestored⟩ := finishDecrypt_pad { t with ctrl := c } (hmlen.trans_le h.le)
  exact ⟨t, _, execCbcEnc_fits h hm, hu, hlen.trans (ofNat_eq_len hmlen), hrestored⟩

end Sys2Proof.Machine

/-! PROOFS. The CTR mode engine (46_ctr_mode_engine.md R170 to R174). -/

namespace Sys2Proof.Machine

/-- Block `i` is combined with the encryption of the nonce incremented `i` times (R172). -/
theorem ctrApply_getElem? (k : Block) {v b : Block} {bs : List Block} {i : Nat} (h : bs[i]? = some b) :
    (ctrApply k v bs)[i]? = some (xor16 b (Config.E k (inc16Iter i v))) := by
  induction bs generalizing v i with
  | nil => cases h
  | cons a bs ih =>
    cases i with
    | zero =>
      obtain rfl : a = b := Option.some.inj h
      rfl
    | succ i => exact ih h

/-- CTR is its own inverse: the keystream depends on KEY and the nonce alone, and combining twice with it cancels
(R174). -/
theorem ctrApply_ctrApply (k v : Block) (bs : List Block) : ctrApply k v (ctrApply k v bs) = bs := by
  induction bs generalizing v with
  | nil => rfl
  | cons b bs ih => rw [ctrApply, ctrApply, xor16_xor16_cancel_right, ih]

/-- Settles O12: the counter of block `i` is the nonce incremented `i` times, whose integer form is that of R142. -/
theorem ctrKeystreamByIndex : Obligations.CtrKeystreamByIndex :=
  fun k n _ _ i h => ⟨ctrApply_getElem? k h, inc16Iter_eq_beInv i n⟩

/-- What CTR_ENC stores: the padded message combined with the keystream, then the nonce as a trailing block (R170). -/
def ctrCiphertext (k n : Block) (m : List Byte) : List Byte := ungroup (ctrApply k n (group (pad m))) ++ n.toList

theorem ctrCiphertext_length (k n : Block) (m : List Byte) : (ctrCiphertext k n m).length = (pad m).length + 16 := by
  rw [ctrCiphertext, List.length_append, Vector.length_toList,
    ungroup_length_of_group (ctrApply_length _ _ _) (pad_length_mod m)]

/-- CTR_ENC of a specified message that fits with its nonce (R170, R173). -/
theorem execCtrEnc_fits {s : State} {m : List Byte} (h : s.msgLen + padLen s.msgLen + 16 ≤ Config.msgCap)
    (hm : s.holds m) :
    execCtrEnc s = .next (complete false
      (storeMessage (ctrCiphertext s.key (ctrNonce s) m) ((pad m).length + 16) (useNonce s))) :=
  runOn_bytes (paddedInput_bytes hm h) s _

/-- Settles O46: the two ends of the fetch, the output being 16 bytes longer than the padded message. -/
theorem ctrEncCommand : Obligations.CtrEncCommand :=
  ⟨fun _ _ _ h hm hn => hn ▸ execCtrEnc_fits h hm, fun s h => runOn_err (paddedInput_err h) s _,
    fun _ _ _ _ => ⟨rfl, rfl⟩⟩

/-- A decrypt command whose LEN is below its trailer raises TruncatedCiphertext (R185, check 3). -/
theorem cipherInput_truncated {n : Nat} {s : State} (hcap : s.msgLen ≤ Config.msgCap) (h : s.msgLen < n) :
    cipherInput n s = .err .truncatedCiphertext := by
  unfold cipherInput
  rw [if_neg (Nat.not_lt_of_le hcap), if_pos h]

/-- CTR_DEC of a specified message whose length passes the checks (R171). -/
theorem execCtrDec_aligned {s : State} {c : List Byte} (hcap : s.msgLen ≤ Config.msgCap) (hn : 16 ≤ s.msgLen)
    (hal : s.msgLen % 16 = 0) (hc : s.holds c) :
    execCtrDec s = .next (finishDecrypt
      (ungroup (ctrApply s.key (blockOfBytes (c.drop (s.msgLen - 16))) (group (c.take (s.msgLen - 16))))) s) := by
  have hclen : c.length = s.msgLen := Memory.readBytes_length hc
  rw [← hclen]
  exact runOn_bytes (cipherInput_bytes hc hcap hn hal) s _

/-- Settles O47: the text is 16 bytes shorter than the ciphertext, and `unpad` of it decides between the three ends. -/
theorem ctrDecCommand : Obligations.CtrDecCommand := by
  refine ⟨fun s c p hcap hn hal hc hp => ?_, fun s h => runOn_err (cipherInput_overflow h) s _,
    fun s hcap h => runOn_err (cipherInput_truncated hcap h) s _,
    fun s hcap hn h => runOn_err (cipherInput_unaligned hcap hn h) s _⟩
  have hclen : c.length = s.msgLen := Memory.readBytes_length hc
  have hplen : p.length = s.msgLen - 16 := by
    rw [hp, ← hclen]
    exact ctrBody_length _ _ (hclen ▸ hn) (hclen ▸ hal)
  refine (execCtrDec_aligned hcap hn hal hc).trans (congrArg _ ?_)
  rw [← hp]
  cases hu : unpad p s.ctrl.strictUnpad with
  | ok t => exact finishDecrypt_ok hu
  | fallback => exact hplen ▸ finishDecrypt_fallback hu
  | invalid => exact finishDecrypt_invalid hu

/-- CTR_DEC of what CTR_ENC has stored under the same KEY decrypts to the padded message, for every nonce (R174). -/
theorem execCtrDec_ctrCiphertext {s : State} {n : Block} {m : List Byte} (hcap : s.msgLen ≤ Config.msgCap)
    (hc : s.holds (ctrCiphertext s.key n m)) : execCtrDec s = .next (finishDecrypt (pad m) s) := by
  have hal := pad_length_mod m
  have hlen : s.msgLen = (pad m).length + 16 := (Memory.readBytes_length hc).symm.trans (ctrCiphertext_length _ _ _)
  have hbody : (ungroup (ctrApply s.key n (group (pad m)))).length = s.msgLen - 16 := by
    rw [ungroup_length_of_group (ctrApply_length _ _ _) hal]
    omega
  have hexec := execCtrDec_aligned hcap (by omega) (by omega) hc
  rwa [ctrCiphertext, List.take_left' hbody, List.drop_left' hbody, blockOfBytes_toList, group_ungroup,
    ctrApply_ctrApply, ungroup_group hal] at hexec

/-- Settles O48: CTR_DEC takes the nonce from the buffer, whichever source it came from, and its text is the padded
message, which `unpad` restores. -/
theorem ctrRoundTrip : Obligations.CtrRoundTrip := by
  intro s m c h hm
  set cipher := ctrCiphertext s.key (ctrNonce s) m
  set t := complete false (storeMessage cipher ((pad m).length + 16) (useNonce s))
  have hmlen : m.length = s.msgLen := Memory.readBytes_length hm
  have hclen : cipher.length = (pad m).length + 16 := ctrCiphertext_length _ _ _
  have hcap : (pad m).length + 16 ≤ Config.msgCap := by
    rw [pad_length, hmlen]
    exact h
  have hholds := storeMessage_holds (useNonce s) hclen.ge hcap
  rw [List.take_of_length_le hclen.le] at hholds
  have hu : execCtrDec { t with ctrl := c } = .next (finishDecrypt (pad m) { t with ctrl := c }) :=
    execCtrDec_ctrCiphertext ((toNat_ofNat_of_le_msgCap hcap).trans_le hcap) hholds
  obtain ⟨hlen, hrestored⟩ := finishDecrypt_pad { t with ctrl := c } (m := m) (by omega)
  exact ⟨t, _, execCtrEnc_fits h hm, hu, hlen.trans (ofNat_eq_len hmlen), hrestored⟩

end Sys2Proof.Machine

/-! PROOFS. Errors: what an error completion leaves (60_exceptions.md R183), the cause of each code (R180, R181) and the
order of the checks (R185). -/

namespace Sys2Proof.Machine

/-- A completion that records a code is an error completion, which changes STATUS and the pending command only (R183). -/
theorem Effect.error_discards {s t : State} (h : Effect s t) (herr : t.status.err ≠ 0) :
    t = { s with pending := none, status := ⟨false, true, false, t.status.err⟩ } := by
  rcases h.outcome with ⟨c, -, rfl⟩ | ⟨b, he⟩
  · rfl
  · rw [he] at herr
    exact absurd rfl herr

/-- Settles O51: the engine's step of a pending word does what a command can do. -/
theorem errorDiscardsEverything : Obligations.ErrorDiscardsEverything := by
  intro s t w hp h herr
  have hpending : s.pending ≠ none := hp ▸ Option.some_ne_none w
  exact (engineStep_effect hpending h).error_discards herr

/-- Why command `i` raises an error in state `s`: the table of R180, read for one command. -/
def errorCause (i : Instr) (s : State) : ErrCode → Prop
  | .invalidLength => (i = .ecbDec ∨ i = .cbcDec ∨ i = .ctrDec) ∧ s.msgLen % 16 ≠ 0
  | .truncatedCiphertext => i = .ctrDec ∧ s.msgLen < 16
  | .invalidPadding => (i = .unpad ∨ i = .ecbDec ∨ i = .cbcDec ∨ i = .ctrDec) ∧ s.ctrl.strictUnpad = true
  | .keyLength => False
  | .capacityExceeded => i ≠ .xor ∧ i ≠ .inc ∧
      (Config.msgCap < s.msgLen ∨ Config.msgCap < (storedRange i s).1 + (storedRange i s).2)
  | .illegalCommand => False

/-- The command completes without error, or it records the code of an error it has a cause for. -/
def recordsCause (i : Instr) (s t : State) : Prop :=
  t.status.err = 0 ∨ ∃ c, t.status.err = c.code ∧ errorCause i s c

theorem recordsCause.of_raiseErr {i : Instr} {s : State} {c : ErrCode} (h : errorCause i s c) :
    recordsCause i s (raiseErr c s) :=
  .inr ⟨c, rfl, h⟩

/-- An encrypt command raises only CapacityExceeded, when its output does not fit (R185, checks 2 and 5). -/
theorem recordsCause.of_encrypt {i : Instr} {e : Nat} {s t : State} {k : List Byte → State}
    (h : runOn (paddedInput e s) s k = .next t) (hk : ∀ p, (k p).status.err = 0)
    (hrange : storedRange i s = (0, s.msgLen + padLen s.msgLen + e)) (hi : i ≠ .xor ∧ i ≠ .inc) :
    recordsCause i s t := by
  rcases paddedInput_cases e s with ⟨m, -, -, he⟩ | ⟨hover, he⟩ | ⟨-, -, he⟩ <;> rw [he] at h <;> cases h
  · exact .inl (hk _)
  · refine .of_raiseErr ⟨hi.left, hi.right, .inr ?_⟩
    rwa [hrange, Nat.zero_add]

/-- The end of a decrypt command raises only InvalidPadding, in strict mode (R185, check 6). -/
theorem recordsCause.of_finishDecrypt {i : Instr} {s : State} (p : List Byte)
    (hi : i = .ecbDec ∨ i = .cbcDec ∨ i = .ctrDec) : recordsCause i s (finishDecrypt p s) := by
  rcases finishDecrypt_cases p s with ⟨b, n, -, he⟩ | ⟨hstrict, he⟩ <;> rw [he]
  · exact .inl rfl
  · exact .of_raiseErr ⟨.inr hi, hstrict⟩

/-- A decrypt command raises the errors of the length checks, and otherwise ends as its decrypted text says (R185). -/
theorem recordsCause.of_decrypt {i : Instr} {n : Nat} {s t : State} {f : List Byte → List Byte}
    (h : runOn (cipherInput n s) s (fun c => finishDecrypt (f c) s) = .next t)
    (hi : i = .ecbDec ∨ i = .cbcDec ∨ i = .ctrDec)
    (htrailer : s.msgLen < n → errorCause i s .truncatedCiphertext) : recordsCause i s t := by
  rcases cipherInput_cases n s with ⟨m, -, -, -, -, he⟩ | ⟨hover, he⟩ | ⟨-, hshort, he⟩ | ⟨-, -, hal, he⟩ |
    ⟨-, -, -, -, he⟩ <;> rw [he] at h <;> cases h
  · exact .of_finishDecrypt (f m) hi
  · have hreads : i ≠ .xor ∧ i ≠ .inc := by rcases hi with rfl | rfl | rfl <;> exact ⟨nofun, nofun⟩
    exact .of_raiseErr ⟨hreads.left, hreads.right, .inl hover⟩
  · exact .of_raiseErr (htrailer hshort)
  · exact .of_raiseErr ⟨hi, hal⟩

theorem execPad_recordsCause {s t : State} (h : execPad s = .next t) : recordsCause .pad s t := by
  rcases Nat.lt_or_ge Config.msgCap (s.msgLen + padLen s.msgLen) with hl | hl
  · rw [execPad_overflow hl] at h; cases h
    exact .of_raiseErr ⟨nofun, nofun, .inr hl⟩
  · rw [execPad_fits hl] at h; cases h
    exact .inl rfl

/-- The lenient reading of the trailer rejects nothing (R111, R184). -/
theorem unpadInPlace_lenient_ne_invalid (m : Memory) (len : Nat) : unpadInPlace m len false ≠ some .invalid := by
  rcases Nat.eq_zero_or_pos len with rfl | hne
  · exact nofun
  · cases hlast : m.read (len - 1) with
    | none => rw [unpadInPlace_last_unspecified false hne hlast]; exact nofun
    | some last =>
      by_cases hn : last.toNat = 0 ∨ len < last.toNat
      · rw [unpadInPlace_malformed hne hlast false hn]; exact nofun
      · rw [unpadInPlace_lenient hne hlast (by omega) (by omega)]; exact nofun

theorem execUnpad_recordsCause {s t : State} (h : execUnpad s = .next t) : recordsCause .unpad s t := by
  rcases Nat.lt_or_ge Config.msgCap s.msgLen with hl | hl
  · rw [execUnpad_overflow hl] at h; cases h
    exact .of_raiseErr ⟨nofun, nofun, .inl hl⟩
  · cases ho : unpadInPlace s.msg s.msgLen s.ctrl.strictUnpad with
    | none => rw [execUnpad_unspecified hl ho] at h; cases h
    | some o =>
      rw [execUnpad_outcome hl ho] at h; cases h
      cases o with
      | ok kept => exact .inl rfl
      | fallback => exact .inl rfl
      | invalid =>
        refine .of_raiseErr ⟨.inl rfl, Bool.of_not_eq_false fun hlenient => ?_⟩
        rw [hlenient] at ho
        exact unpadInPlace_lenient_ne_invalid _ _ ho

/-- Every command records only errors it has a cause for (R180). -/
theorem exec_recordsCause {i : Instr} {s t : State} (h : exec i s = .next t) : recordsCause i s t := by
  cases i with
  | pad => exact execPad_recordsCause h
  | unpad => exact execUnpad_recordsCause h
  | xor => cases h; exact .inl rfl
  | inc => cases h; exact .inl rfl
  | ecbEnc => exact .of_encrypt h (fun _ => rfl) rfl ⟨nofun, nofun⟩
  | ecbDec => exact .of_decrypt h (.inl rfl) nofun
  | cbcEnc => exact .of_encrypt h (fun _ => rfl) rfl ⟨nofun, nofun⟩
  | cbcDec => exact .of_decrypt h (.inr (.inl rfl)) nofun
  | ctrEnc => exact .of_encrypt h (fun _ => rfl) rfl ⟨nofun, nofun⟩
  | ctrDec => exact .of_decrypt h (.inr (.inr rfl)) fun hshort => ⟨rfl, hshort⟩

theorem ErrCode.code_injective : Function.Injective ErrCode.code := by
  intro a b
  cases a <;> cases b <;> decide

theorem ErrCode.code_ne_zero (c : ErrCode) : c.code ≠ 0 := by
  cases c <;> decide

/-- A command that has recorded the code of an error had a cause for it (R180). -/
theorem exec_errorCause {i : Instr} {s t : State} {c : ErrCode} (h : exec i s = .next t)
    (herr : t.status.err = c.code) : errorCause i s c := by
  rcases exec_recordsCause h with hzero | ⟨c', hcode, hcause⟩
  · exact absurd (herr.symm.trans hzero) c.code_ne_zero
  · rwa [ErrCode.code_injective (herr.symm.trans hcode)]

/-- The codes a command can record: 6 is for illegal words, and 4 and 7 to 15 are never raised (R180, R181). -/
theorem exec_err_cases {i : Instr} {s t : State} (h : exec i s = .next t) :
    t.status.err = 0 ∨ t.status.err = 1 ∨ t.status.err = 2 ∨ t.status.err = 3 ∨ t.status.err = 5 := by
  rcases exec_recordsCause h with hzero | ⟨c, hcode, hcause⟩
  · exact .inl hzero
  · rw [hcode]
    cases c with
    | keyLength => exact hcause.elim
    | illegalCommand => exact hcause.elim
    | _ => decide

/-- The engine records code 6 exactly for a pending word that decodes to no command (R92, R180). -/
theorem engineStep_err_six_iff {s t : State} {w : Word} (hp : s.pending = some w) (h : engineStep s = .next t) :
    t.status.err = 6 ↔ ∃ e, decode w = .error e := by
  cases hd : decode w with
  | ok i =>
    rw [engineStep_decoded hp hd] at h
    rcases exec_err_cases h with he | he | he | he | he <;> simp [he]
  | error e =>
    rw [engineStep_illegal hp hd] at h; cases h
    exact ⟨fun _ => ⟨e, rfl⟩, fun _ => rfl⟩

theorem legalErr_iff {e : BitVec 4} : legalErr e = true ↔ e ≠ 4 ∧ e.toNat ≤ 6 := by
  decide +revert

/-- Settles O52: each clause is one cause of `errorCause`, and the engine adds the illegal words. -/
theorem errorCodesByCause : Obligations.ErrorCodesByCause := by
  refine ⟨fun i s t h => ⟨?_, ?_, ?_, ?_, exec_err_cases h, (exec_effect h).error_discards⟩, fun s t w hp h => ?_⟩
  · exact exec_errorCause (c := .invalidLength) h
  · exact exec_errorCause (c := .truncatedCiphertext) h
  · exact exec_errorCause (c := .invalidPadding) h
  · exact exec_errorCause (c := .capacityExceeded) h
  · have hpending : s.pending ≠ none := hp ▸ Option.some_ne_none w
    obtain ⟨hlegal, -⟩ := (engineStep_effect hpending h).err_legal
    exact ⟨engineStep_err_six_iff hp h, legalErr_iff.mp hlegal⟩

/-- Check 2 of R185: every command that reads LEN raises CapacityExceeded when LEN is above MSG_CAP. -/
theorem exec_overflow {i : Instr} {s : State} (h : Config.msgCap < s.msgLen) (hxor : i ≠ .xor) (hinc : i ≠ .inc) :
    exec i s = .next (raiseErr .capacityExceeded s) := by
  have hpadded (e k) : runOn (paddedInput e s) s k = .next (raiseErr .capacityExceeded s) :=
    runOn_err (paddedInput_err (by omega)) s k
  have hcipher (n k) : runOn (cipherInput n s) s k = .next (raiseErr .capacityExceeded s) :=
    runOn_err (cipherInput_overflow h) s k
  cases i with
  | pad => exact execPad_overflow (by omega)
  | unpad => exact execUnpad_overflow h
  | xor => exact absurd rfl hxor
  | inc => exact absurd rfl hinc
  | ecbEnc => exact hpadded _ _
  | ecbDec => exact hcipher _ _
  | cbcEnc => exact hpadded _ _
  | cbcDec => exact hcipher _ _
  | ctrEnc => exact hpadded _ _
  | ctrDec => exact hcipher _ _

/-- Check 6 of R185 for UNPAD, on a specified message. -/
theorem execUnpad_invalid {s : State} {m : List Byte} (hcap : s.msgLen ≤ Config.msgCap) (hm : s.holds m)
    (hu : unpad m s.ctrl.strictUnpad = .invalid) : execUnpad s = .next (raiseErr .invalidPadding s) := by
  have ho : unpadInPlace s.msg s.msgLen s.ctrl.strictUnpad = some .invalid := by
    rw [unpadInPlace_eq _ hm, hu, keptLength]
  exact execUnpad_outcome hcap ho

/-- Settles O53: one clause per check, each the end of the fetch or of the decrypted text that the check decides. -/
theorem errorCheckOrder : Obligations.ErrorCheckOrder := by
  refine ⟨fun s w e => engineStep_illegal, fun s => ⟨fun h i => exec_overflow h, fun hcap h => ?truncated,
    fun hcap h => ?unaligned, fun _ h => ?output, fun _ h => ?outputWithNonce, fun c hcap hc => ?padding⟩⟩
  case truncated => exact runOn_err (cipherInput_truncated hcap h) s _
  case unaligned =>
    exact ⟨runOn_err (cipherInput_unaligned hcap (Nat.zero_le _) h) s _,
      runOn_err (cipherInput_unaligned hcap (Nat.zero_le _) h) s _,
      fun hn => runOn_err (cipherInput_unaligned hcap hn h) s _⟩
  case output => exact ⟨execPad_overflow h, runOn_err (paddedInput_err h) s _, runOn_err (paddedInput_err h) s _⟩
  case outputWithNonce => exact runOn_err (paddedInput_err h) s _
  case padding =>
    exact ⟨execUnpad_invalid hcap hc,
      fun hal hu => (execEcbDec_aligned hcap hal hc).trans (congrArg _ (finishDecrypt_invalid hu)),
      fun hal hu => (execCbcDec_aligned hcap hal hc).trans (congrArg _ (finishDecrypt_invalid hu)),
      fun hal hn hu => (execCtrDec_aligned hcap hn hal hc).trans (congrArg _ (finishDecrypt_invalid hu))⟩

end Sys2Proof.Machine

/-! PROOFS. The reset turn (70_reset_and_hazards.md R210, R211). -/

namespace Sys2Proof.Machine

/-- The step of a reset turn resets the block, whatever is pending. -/
theorem step_resetTurn {s : State} {ts : List Turn} (h : s.schedule = .reset :: ts) :
    step s = .next (resetBlock (setSchedule ts s)) := step_turn h

@[simp] theorem resetBlock_irq (s : State) : (resetBlock s).irq = State.reset.irq := rfl

/-- Settles O14: the step answers the reset block, whose registers are those of `State.reset`, and keeps the turns
after the reset. -/
theorem resetAbandonsCommand : Obligations.ResetAbandonsCommand := by
  intro s ts h
  obtain ⟨hctrl, hstatus, hlen, hkey, hiv, hopa, hopb, hres, hnonce, hmsg, hpending, hirq⟩ := resetValues
  exact ⟨resetBlock (setSchedule ts s), step_resetTurn h, hctrl, hstatus, hlen, hkey, hiv, hopa, hopb, hres, hnonce,
    hmsg, hpending, (resetBlock_irq _).trans hirq, setSchedule_schedule ts s⟩

end Sys2Proof.Machine
